-- ==== Sys2Proof/Word.lean ====
section
/-! DEFINITION. The machine's bit widths (spec 00_scope.md R8, 10_state.md R21): every value is unsigned and wraps. -/

namespace Sys2Proof

/-- 8 bits: a general register, a timer, the stack pointer, a byte of memory (10_state.md R22, R28, R30, R37). -/
abbrev Byte := BitVec 8

/-- 16 bits: an instruction word, `I`, `PC`, a return address (10_state.md R25, R26, R29; 30_encoding.md R70). -/
abbrev Word := BitVec 16

/-- 12 bits: the address operand `nnn` (30_encoding.md R71). -/
abbrev Addr12 := BitVec 12

/-- A register index 0 to 15 (10_state.md R22; 30_encoding.md R72). -/
abbrev Reg := Fin 16

/-- `VF`, the general register that is also the flag register (10_state.md R23). -/
abbrev VF : Reg := 15

end Sys2Proof
end

