-- ==== Sys2Proof/Decode.lean ====
section
/-! DEFINITION. The decoder, a pure total function (spec 30_encoding.md R73), written as the table of R74: a word decodes
to the first row whose pattern it matches. After it the encoder, written from the same encodings. -/

namespace Sys2Proof

/-- Why bytes are no instruction. -/
inductive DecodeReject where
  /-- The word matches no row of 30_encoding.md R74: the "unimplemented opcode" condition (R80). -/
  | unassigned (w : Word)
  /-- Fewer than the two bytes every instruction has (30_encoding.md R70). The machine's fetch never raises it. -/
  | truncated
deriving DecidableEq, Repr

/-- Bits 15..8: the byte at the lower address (20_memory.md R52). -/
def hiByte (w : Word) : Byte := w.extractLsb' 8 8

/-- Bits 7..0: the byte at the higher address (20_memory.md R52). -/
def loByte (w : Word) : Byte := w.extractLsb' 0 8

/-- A 4-bit field as an index or count (30_encoding.md R72). -/
def ofNibble (b : BitVec 4) : Fin 16 := b.toFin

/-- An index or count as a 4-bit field (30_encoding.md R72). -/
def toNibble (x : Fin 16) : BitVec 4 := BitVec.ofFin x

/-- `x = word[11:8]` (30_encoding.md R71). -/
def fieldX (w : Word) : Reg := ofNibble (w.extractLsb' 8 4)

/-- `y = word[7:4]` (30_encoding.md R71). -/
def fieldY (w : Word) : Reg := ofNibble (w.extractLsb' 4 4)

/-- `n = word[3:0]` (30_encoding.md R71). -/
def fieldN (w : Word) : Fin 16 := ofNibble (w.extractLsb' 0 4)

/-- `kk = word[7:0]` (30_encoding.md R71). -/
def fieldKk (w : Word) : Byte := w.extractLsb' 0 8

/-- `nnn = word[11:0]` (30_encoding.md R71). -/
def fieldNnn (w : Word) : Addr12 := w.extractLsb' 0 12

/-- One row of the decode table of 30_encoding.md R74. -/
structure Row where
  /-- the row's name in spec/opcode_table.json -/
  mnemonic : String
  /-- the assembler form (30_encoding.md R84), a label without effect -/
  asm : String
  /-- the fixed bits' values -/
  pat : Word
  /-- where the fixed bits are -/
  mask : Word
  /-- the instruction, from the word's operand fields -/
  build : Word → Instr

/-- "A word matches a row when `(word & mask) == match`" (30_encoding.md R74). -/
def Row.accepts (r : Row) (w : Word) : Bool := w &&& r.mask == r.pat

/-- Rows 1 to 10 of 30_encoding.md R74. The words 00FE, 00FF and 00Cn, which R80's last sentence counts among the decode errors,
match the row SYS like every other word of class 0 (R75, R80's table). DESIGN CHOICE, unsafe: log 34. -/
def rowsControl : List Row :=
  [ ⟨"CLS", "CLS", 0x00E0, 0xFFFF, fun _ => .cls⟩,
    ⟨"RET", "RET", 0x00EE, 0xFFFF, fun _ => .ret⟩,
    ⟨"SYS", "SYS nnn", 0x0000, 0xF000, fun w => .sys (fieldNnn w)⟩,
    ⟨"JP", "JP nnn", 0x1000, 0xF000, fun w => .jp (fieldNnn w)⟩,
    ⟨"CALL", "CALL nnn", 0x2000, 0xF000, fun w => .call (fieldNnn w)⟩,
    ⟨"SE_imm", "SE Vx, kk", 0x3000, 0xF000, fun w => .seImm (fieldX w) (fieldKk w)⟩,
    ⟨"SNE_imm", "SNE Vx, kk", 0x4000, 0xF000, fun w => .sneImm (fieldX w) (fieldKk w)⟩,
    ⟨"SE_reg", "SE Vx, Vy", 0x5000, 0xF00F, fun w => .seReg (fieldX w) (fieldY w)⟩,
    ⟨"LD_imm", "LD Vx, kk", 0x6000, 0xF000, fun w => .ldImm (fieldX w) (fieldKk w)⟩,
    ⟨"ADD_imm", "ADD Vx, kk", 0x7000, 0xF000, fun w => .addImm (fieldX w) (fieldKk w)⟩ ]

/-- Rows 11 to 20 of 30_encoding.md R74: the classes 8 and 9. -/
def rowsAlu : List Row :=
  [ ⟨"LD_reg", "LD Vx, Vy", 0x8000, 0xF00F, fun w => .ldReg (fieldX w) (fieldY w)⟩,
    ⟨"OR", "OR Vx, Vy", 0x8001, 0xF00F, fun w => .or (fieldX w) (fieldY w)⟩,
    ⟨"AND", "AND Vx, Vy", 0x8002, 0xF00F, fun w => .and (fieldX w) (fieldY w)⟩,
    ⟨"XOR", "XOR Vx, Vy", 0x8003, 0xF00F, fun w => .xor (fieldX w) (fieldY w)⟩,
    ⟨"ADD_reg", "ADD Vx, Vy", 0x8004, 0xF00F, fun w => .addReg (fieldX w) (fieldY w)⟩,
    ⟨"SUB", "SUB Vx, Vy", 0x8005, 0xF00F, fun w => .sub (fieldX w) (fieldY w)⟩,
    ⟨"SHR", "SHR Vx, Vy", 0x8006, 0xF00F, fun w => .shr (fieldX w) (fieldY w)⟩,
    ⟨"SUBN", "SUBN Vx, Vy", 0x8007, 0xF00F, fun w => .subn (fieldX w) (fieldY w)⟩,
    ⟨"SHL", "SHL Vx, Vy", 0x800E, 0xF00F, fun w => .shl (fieldX w) (fieldY w)⟩,
    ⟨"SNE_reg", "SNE Vx, Vy", 0x9000, 0xF00F, fun w => .sneReg (fieldX w) (fieldY w)⟩ ]

/-- Rows 21 to 26 of 30_encoding.md R74. -/
def rowsMisc : List Row :=
  [ ⟨"LD_I", "LD I, nnn", 0xA000, 0xF000, fun w => .ldI (fieldNnn w)⟩,
    ⟨"JP_V0", "JP V0, nnn", 0xB000, 0xF000, fun w => .jpV0 (fieldNnn w)⟩,
    ⟨"RND", "RND Vx, kk", 0xC000, 0xF000, fun w => .rnd (fieldX w) (fieldKk w)⟩,
    ⟨"DRW", "DRW Vx, Vy, n", 0xD000, 0xF000, fun w => .drw (fieldX w) (fieldY w) (fieldN w)⟩,
    ⟨"SKP", "SKP Vx", 0xE09E, 0xF0FF, fun w => .skp (fieldX w)⟩,
    ⟨"SKNP", "SKNP Vx", 0xE0A1, 0xF0FF, fun w => .sknp (fieldX w)⟩ ]

/-- Rows 27 to 35 of 30_encoding.md R74: the class F. -/
def rowsTimerMemory : List Row :=
  [ ⟨"LD_Vx_DT", "LD Vx, DT", 0xF007, 0xF0FF, fun w => .ldVxDt (fieldX w)⟩,
    ⟨"LD_Vx_K", "LD Vx, K", 0xF00A, 0xF0FF, fun w => .ldVxK (fieldX w)⟩,
    ⟨"LD_DT_Vx", "LD DT, Vx", 0xF015, 0xF0FF, fun w => .ldDtVx (fieldX w)⟩,
    ⟨"LD_ST_Vx", "LD ST, Vx", 0xF018, 0xF0FF, fun w => .ldStVx (fieldX w)⟩,
    ⟨"ADD_I", "ADD I, Vx", 0xF01E, 0xF0FF, fun w => .addI (fieldX w)⟩,
    ⟨"LD_F", "LD F, Vx", 0xF029, 0xF0FF, fun w => .ldF (fieldX w)⟩,
    ⟨"LD_B", "LD B, Vx", 0xF033, 0xF0FF, fun w => .ldB (fieldX w)⟩,
    ⟨"LD_I_Vx", "LD [I], Vx", 0xF055, 0xF0FF, fun w => .stRegs (fieldX w)⟩,
    ⟨"LD_Vx_I", "LD Vx, [I]", 0xF065, 0xF0FF, fun w => .ldRegs (fieldX w)⟩ ]

/-- The decode table of 30_encoding.md R74, in its order. -/
def opcodeRows : List Row := rowsControl ++ rowsAlu ++ rowsMisc ++ rowsTimerMemory

/-- The instruction of the first of `rows` that accepts `w` (30_encoding.md R74). -/
def decodeWith (rows : List Row) (w : Word) : Except DecodeReject Instr :=
  match rows with
  | [] => .error (.unassigned w)
  | r :: rest => if r.accepts w then .ok (r.build w) else decodeWith rest w

/-- `decode(word)` of 30_encoding.md R73: no state is read. -/
def decode (w : Word) : Except DecodeReject Instr := decodeWith opcodeRows w

/-- The instruction at the head of a byte stream and the bytes after it; the first byte is the high one (20_memory.md
R52, D1: PRESUMED by the spec, unsafe, log 1). Every instruction has two bytes (30_encoding.md R70, R82). -/
def decodeBytes (bytes : List Byte) : Except DecodeReject (Instr × List Byte) :=
  match bytes with
  | hi :: lo :: rest =>
    match decode (hi ++ lo) with
    | .ok i => .ok (i, rest)
    | .error e => .error e
  | _ => .error .truncated

/-- The word of the host's numbering: bit 0 is the word's least significant bit, and bits from `nbits` up are 0. -/
def tableWord (nbits w : Nat) : Word := BitVec.ofNat 16 (w % 2 ^ nbits)

/-- A word as the two bytes in memory order (20_memory.md R52). -/
def wordBytes (w : Word) : List Byte := [hiByte w, loByte w]

/-- What the decoder reads from an instruction whose bits are `w`, laid out in memory order. -/
def decodeTableWord (nbits w : Nat) : Option Instr :=
  match decodeBytes (wordBytes (tableWord nbits w)) with
  | .ok (i, _) => some i
  | .error _ => none

/-- The word of an instruction of format O-nnn (spec/opcode_table.json): class, address. -/
def wordNnn (c : BitVec 4) (nnn : Addr12) : Word := c ++ nnn

/-- The word of an instruction of format O-x-kk: class, register, low byte (an operand or fixed bits). -/
def wordXKk (c : BitVec 4) (x : Reg) (kk : Byte) : Word := c ++ (toNibble x ++ kk)

/-- The word of an instruction of format O-x-y-n: class, two registers, low nibble (an operand or fixed bits). -/
def wordXYN (c : BitVec 4) (x y : Reg) (n : BitVec 4) : Word := c ++ (toNibble x ++ (toNibble y ++ n))

/-- The word of a well-formed instruction, from the pattern column of 30_encoding.md R74. -/
def encode : Instr → Word
  | .cls => 0x00E0
  | .ret => 0x00EE
  | .sys nnn => wordNnn 0x0 nnn
  | .jp nnn => wordNnn 0x1 nnn
  | .call nnn => wordNnn 0x2 nnn
  | .seImm x kk => wordXKk 0x3 x kk
  | .sneImm x kk => wordXKk 0x4 x kk
  | .seReg x y => wordXYN 0x5 x y 0x0
  | .ldImm x kk => wordXKk 0x6 x kk
  | .addImm x kk => wordXKk 0x7 x kk
  | .ldReg x y => wordXYN 0x8 x y 0x0
  | .or x y => wordXYN 0x8 x y 0x1
  | .and x y => wordXYN 0x8 x y 0x2
  | .xor x y => wordXYN 0x8 x y 0x3
  | .addReg x y => wordXYN 0x8 x y 0x4
  | .sub x y => wordXYN 0x8 x y 0x5
  | .shr x y => wordXYN 0x8 x y 0x6
  | .subn x y => wordXYN 0x8 x y 0x7
  | .shl x y => wordXYN 0x8 x y 0xE
  | .sneReg x y => wordXYN 0x9 x y 0x0
  | .ldI nnn => wordNnn 0xA nnn
  | .jpV0 nnn => wordNnn 0xB nnn
  | .rnd x kk => wordXKk 0xC x kk
  | .drw x y n => wordXYN 0xD x y (toNibble n)
  | .skp x => wordXKk 0xE x 0x9E
  | .sknp x => wordXKk 0xE x 0xA1
  | .ldVxDt x => wordXKk 0xF x 0x07
  | .ldVxK x => wordXKk 0xF x 0x0A
  | .ldDtVx x => wordXKk 0xF x 0x15
  | .ldStVx x => wordXKk 0xF x 0x18
  | .addI x => wordXKk 0xF x 0x1E
  | .ldF x => wordXKk 0xF x 0x29
  | .ldB x => wordXKk 0xF x 0x33
  | .stRegs x => wordXKk 0xF x 0x55
  | .ldRegs x => wordXKk 0xF x 0x65

/-- The two bytes of an instruction, in memory order (20_memory.md R52). -/
def encodeBytes (i : Instr) : List Byte := wordBytes (encode i)

end Sys2Proof
end

