-- ==== Sys2Proof/Config.lean ====
section
/-! DEFINITION. What is fixed for the machine and not state (spec 00_scope.md R6, R7), and the free values (R11): the
constants without a body, of which nothing can be proved but that they have their type. -/

namespace Sys2Proof

/-- `RESET_PC` (00_scope.md R6, 70_reset_and_hazards.md R291, D2). DESIGN CHOICE of the spec, unsafe: log 2. -/
def Config.resetPc : Word := 0x0200

/-- `PROGRAM_BASE`: where LOAD puts byte 0 of an image (00_scope.md R6, 60_exceptions.md R271). -/
def Config.programBase : Word := 0x0200

/-- `PROGRAM_MAX`: the longest image LOAD takes (00_scope.md R6, 60_exceptions.md R271). -/
def Config.programMax : Nat := 0xE00

/-- The 80 bytes of a font: 16 glyphs of 5 bytes (00_scope.md R6, R7; 10_state.md R39). -/
abbrev Font := Vector Byte 80

/-- `FONT_BASE`: where RESET puts the font (00_scope.md R6, 10_state.md R38; log 4). -/
def Config.fontBase : Word := 0x000

/-- Glyphs 0 to 7 of the default `FONT` (10_state.md R39). -/
def Config.fontLow : List Byte :=
  [0xF0, 0x90, 0x90, 0x90, 0xF0] ++ [0x20, 0x60, 0x20, 0x20, 0x70] ++
  [0xF0, 0x10, 0xF0, 0x80, 0xF0] ++ [0xF0, 0x10, 0xF0, 0x10, 0xF0] ++
  [0x90, 0x90, 0xF0, 0x10, 0x10] ++ [0xF0, 0x80, 0xF0, 0x10, 0xF0] ++
  [0xF0, 0x80, 0xF0, 0x90, 0xF0] ++ [0xF0, 0x10, 0x20, 0x40, 0x40]

/-- Glyphs 8 to F of the default `FONT` (10_state.md R39). -/
def Config.fontHigh : List Byte :=
  [0xF0, 0x90, 0xF0, 0x90, 0xF0] ++ [0xF0, 0x90, 0xF0, 0x10, 0xF0] ++
  [0xF0, 0x90, 0xF0, 0x90, 0x90] ++ [0xE0, 0x90, 0xE0, 0x90, 0xE0] ++
  [0xF0, 0x80, 0x80, 0x80, 0xF0] ++ [0xE0, 0x90, 0x90, 0x90, 0xE0] ++
  [0xF0, 0x80, 0xF0, 0x80, 0xF0] ++ [0xF0, 0x80, 0xF0, 0x80, 0x80]

/-- The default table of `FONT`, as a list. -/
def Config.fontTable : List Byte := Config.fontLow ++ Config.fontHigh

/-- The default of the parameter `FONT` (00_scope.md R7, 10_state.md R39, D3). RESET takes any font as an argument
(`State.resetWith`, `hostOp`); `State.reset` is the state after it with this one. PRESUMED (the spec marks the table as
general knowledge), unsafe: log 3. -/
def Config.font : Font := ⟨Config.fontTable.toArray, rfl⟩

/-- The free value `rnd` of the `k`-th draw: the byte the environment answers to RND (44_random.md R190, D26).
No body: log 11. -/
opaque Config.rnd : Nat → Byte

/-- The free value `vf_clash` of the `k`-th draw: `VF` after an instruction that writes it both as flag and as
destination (43_load_alu.md R171, 10_state.md R24, D11). No body: log 9. -/
opaque Config.vfClash : Nat → Byte

/-- The free value `key_oob` of the `k`-th draw: the pressed bit of a key number over 15 (42_skips.md R146, D13).
No body: log 10. -/
opaque Config.keyOob : Nat → Bool

end Sys2Proof
end

