-- ==== Sys2Proof/Machine/State.lean ====
section
/-! DEFINITION. The machine's state, all of it plain data (spec 10_state.md R20 to R41), the reasons a step can stop, and the
state right after RESET (70_reset_and_hazards.md R290). -/

namespace Sys2Proof.Machine

/-- The record `FAULT` holds once an engine fault is raised (10_state.md R36, 60_exceptions.md R250). -/
inductive EngineFault where
  /-- Code 1. STEP raises it when the fetched word `word`, fetched from `addr`, matches no row (60_exceptions.md R251). -/
  | decodeError (word : Word) (addr : Word)
  /-- Code 2. CALL, fetched from `addr`, raises it when the stack is full (60_exceptions.md R253). -/
  | stackOverflow (addr : Word)
deriving DecidableEq, Repr

/-- Why a step stops with a fault. -/
inductive Fault where
  /-- Raised by `step` of a core whose `FAULT` already holds `f`: STEP returns `Err(FAULT)` and changes nothing
  (40_step_cycle.md R100, 60_exceptions.md R252, U20). Safe: nothing runs (log 7). -/
  | engine (f : EngineFault)
  /-- Raised by RET with an `SP` over 16, where `STACK[SP - 1]` does not exist. 10_state.md R28 rules such an `SP` out, and
  no run reaches one. Safe (log 20). -/
  | stackPointer (sp : Byte)
deriving DecidableEq, Repr

/-- Why an operation has no meaning in the model. -/
inductive Refusal where
  /-- An instruction that has no meaning yet, by its mnemonic. Safe: nothing can be proved of it. Raised by no arm. -/
  | notModelled (mnemonic : String)
  /-- Raised by the host operation LOAD of an image over 0xE00 bytes (60_exceptions.md R271, D19, U9). Safe (log 19). -/
  | loadTooLong (length : Nat)
deriving DecidableEq, Repr

/-- `MEM` (10_state.md R37): the bytes that differ from the RESET contents with the default `FONT`, addresses strictly rising and below 4096. -/
abbrev Memory := List Host.Cell

/-- `FB` (10_state.md R32): 64 columns of 32 rows, `true` meaning lit; `fb[c][r]` is the spec's `FB[c][r]`. -/
abbrev Framebuffer := Vector (Vector Bool 32) 64

/-- The framebuffer with every cell unlit (10_state.md R32). -/
def Framebuffer.unlit : Framebuffer := Vector.replicate 64 (Vector.replicate 32 false)

/-- The whole state of the core. -/
structure State where
  /-- `V[0..15]` (10_state.md R22); `v[15]` is `VF` (R23) -/
  v : Vector Byte 16
  /-- `I` (10_state.md R25) -/
  i : Word
  /-- `PC` (10_state.md R26) -/
  pc : Word
  /-- `SP` (10_state.md R28) -/
  sp : Byte
  /-- `STACK[0..15]` (10_state.md R29) -/
  stack : Vector Word 16
  /-- `DT` (10_state.md R30) -/
  dt : Byte
  /-- `ST` (10_state.md R31) -/
  st : Byte
  /-- `MEM` (10_state.md R37, R38) -/
  mem : Memory
  /-- `FB` (10_state.md R32) -/
  fb : Framebuffer
  /-- `KEY[0..15]`, `true` meaning pressed (10_state.md R34) -/
  key : Vector Bool 16
  /-- `AWAIT` (10_state.md R35) -/
  await : Option Reg
  /-- `FAULT` (10_state.md R36) -/
  fault : Option EngineFault
  /-- The model's own: how many free values the run has taken (00_scope.md R11). DESIGN CHOICE: log 12. -/
  draws : Nat
deriving DecidableEq, Repr

/-- The outcome of a step or of an instruction. -/
abbrev Result := Host.Outcome State Fault Refusal

/-- The state right after RESET with the default `FONT` (70_reset_and_hazards.md R290, 10_state.md R41): memory lists nothing,
since an unlisted byte reads as its RESET contents. `State.resetWith` takes any font. -/
def State.reset : State where
  v := Vector.replicate 16 0
  i := 0
  pc := Config.resetPc
  sp := 0
  stack := Vector.replicate 16 0
  dt := 0
  st := 0
  mem := []
  fb := Framebuffer.unlit
  key := Vector.replicate 16 false
  await := none
  fault := none
  draws := 0

end Sys2Proof.Machine
end

