-- ==== Sys2Proof/Machine/Ops.lean ====
section
/-! DEFINITION. The named operations over registers, memory, the return stack, the framebuffer and the hidden state, and the
one operation that takes an engine fault. Every meaning reads and writes the state through these. -/

namespace Sys2Proof.Machine

/-! Registers and the other single fields (spec 00_scope.md R9). -/

/-- `V[x]` (00_scope.md R9). -/
def State.reg (s : State) (x : Reg) : Byte := s.v[x]

/-- `V[x] <- b` (00_scope.md R9). -/
def State.setReg (s : State) (x : Reg) (b : Byte) : State := { s with v := s.v.set x b }

/-- `V[0..15]`, all written at once. -/
def State.setRegs (s : State) (v : Vector Byte 16) : State := { s with v := v }

/-- `I <- w`. -/
def State.setI (s : State) (w : Word) : State := { s with i := w }

/-- `PC <- w`. -/
def State.setPc (s : State) (w : Word) : State := { s with pc := w }

/-- `SP <- b`. -/
def State.setSp (s : State) (b : Byte) : State := { s with sp := b }

/-- `STACK`, written whole. -/
def State.setStack (s : State) (k : Vector Word 16) : State := { s with stack := k }

/-- `DT <- b`. -/
def State.setDt (s : State) (b : Byte) : State := { s with dt := b }

/-- `ST <- b`. -/
def State.setSt (s : State) (b : Byte) : State := { s with st := b }

/-- `MEM`, written whole. -/
def State.setMem (s : State) (m : Memory) : State := { s with mem := m }

/-- `FB`, written whole. -/
def State.setFb (s : State) (f : Framebuffer) : State := { s with fb := f }

/-- `KEY[k] <- b` (60_exceptions.md R266). -/
def State.setKeyBit (s : State) (k : Fin 16) (b : Bool) : State := { s with key := s.key.set k b }

/-- `AWAIT <- a` (10_state.md R35). -/
def State.setAwait (s : State) (a : Option Reg) : State := { s with await := a }

/-- `FAULT <- f` (10_state.md R36). -/
def State.setFault (s : State) (f : Option EngineFault) : State := { s with fault := f }

/-- One free value has been taken (00_scope.md R11; log 12). -/
def State.countDraw (s : State) : State := { s with draws := s.draws + 1 }

/-! Memory (spec 20_memory.md). -/

/-- What an address that the list does not name reads as: the RESET contents with the default `FONT`, from 0x000, and 0 from
0x050 on (10_state.md R38; log 3, log 4). Bytes of another font are listed. -/
def Memory.unlisted (a : Nat) : Byte := Config.fontTable.getD a 0

/-- The byte of cell `a`. -/
def Memory.read : Memory → Nat → Byte
  | [], a => Memory.unlisted a
  | (b, w) :: m, a => if a = b then w else Memory.read m a

/-- `m` without cell `a`. -/
def Memory.erase (m : Memory) (a : Nat) : Memory := m.filter fun c => c.1 != a

/-- `m` with `v` listed at `a`, before the first cell of a higher address. -/
def Memory.insert : Memory → Nat → Byte → Memory
  | [], a, v => [(a, v)]
  | (b, w) :: m, a, v => if a < b then (a, v) :: (b, w) :: m else (b, w) :: Memory.insert m a v

/-- `m` with `v` in cell `a`: listed only where an unlisted cell would not read as `v`. -/
def Memory.write (m : Memory) (a : Nat) (v : Byte) : Memory :=
  if v = Memory.unlisted a then Memory.erase m a else Memory.insert (Memory.erase m a) a v

/-- The canonical form from address `lo` on: addresses rise and are below 4096, no entry reads as if unlisted. -/
def Memory.wfFrom : Nat → Memory → Bool
  | _, [] => true
  | lo, (a, v) :: m => decide (lo ≤ a) && decide (a < 4096) && decide (v ≠ Memory.unlisted a) && Memory.wfFrom (a + 1) m

/-- The canonical form of memory. -/
def Memory.wf (m : Memory) : Bool := Memory.wfFrom 0 m

/-- The cell an address selects: every address is reduced mod 4096, fetches too (20_memory.md R51, D5; log 6). -/
def memCell (a : Word) : Nat := a.toNat % 4096

/-- `MemRead(a, 1)` (00_scope.md R10). -/
def State.memRead (s : State) (a : Word) : Byte := Memory.read s.mem (memCell a)

/-- `MemWrite(a, 1, v)` (00_scope.md R10); 0x000..0x1FF is written like any other cell (20_memory.md R56; log 5). -/
def State.memWrite (s : State) (a : Word) (v : Byte) : State := s.setMem (Memory.write s.mem (memCell a) v)

/-- Bytes stored one by one at consecutive addresses from `a`, in rising order, each address reduced (20_memory.md R51,
R53). -/
def Memory.writeSeq : Memory → Word → List Byte → Memory
  | m, _, [] => m
  | m, a, b :: bs => Memory.writeSeq (Memory.write m (memCell a) b) (a + 1) bs

/-- `Memory.writeSeq` on the state's memory. -/
def State.memWriteSeq (s : State) (a : Word) (bs : List Byte) : State := s.setMem (Memory.writeSeq s.mem a bs)

/-- The state right after RESET of a machine whose `FONT` is `font` (70_reset_and_hazards.md R290, 10_state.md R38, R39;
00_scope.md R7; log 3). With the default font it is `State.reset`. -/
def State.resetWith (font : Font) : State := State.reset.memWriteSeq Config.fontBase font.toList

/-! Fetch (spec 40_step_cycle.md R101). -/

/-- The word at `PC`, high byte first (20_memory.md R52; log 1); no alignment check (R54; log 6). -/
def State.fetchWord (s : State) : Word := s.memRead s.pc ++ s.memRead (s.pc + 1)

/-- `PC <- trunc_16(PC + 2)`, before decode and execute (40_step_cycle.md R101). -/
def State.advancePc (s : State) : State := s.setPc (s.pc + 2)

/-- The fetch address `a` seen by an instruction, whose `PC` has been advanced: `trunc_16(PC - 2)` (40_step_cycle.md
R107). -/
def State.fetchAddr (s : State) : Word := s.pc - 2

/-! The return stack (spec 10_state.md R29). -/

/-- `STACK[j]`, where there is such an entry. -/
def State.stackEntry (s : State) (j : Nat) : Option Word := s.stack[j]?

/-- `STACK[SP] <- w` then `SP <- SP + 1`, for an `SP` below 16 (41_control_transfer.md R122). -/
def State.push (s : State) (w : Word) (h : s.sp.toNat < 16) : State :=
  (s.setStack (s.stack.set s.sp.toNat w h)).setSp (s.sp + 1)

/-! Engine faults (spec 60_exceptions.md R250 to R258). -/

/-- Taking an engine fault, whichever raises it: `FAULT` is set to its record and nothing else changes; no control is
transferred, nothing is saved and no mode changes (60_exceptions.md R252, R255, R257). There is no return from it: only
RESET clears `FAULT` (R258). -/
def State.raiseFault (s : State) (f : EngineFault) : State := s.setFault (some f)

/-- The code of a fault on a host status port (60_exceptions.md R250, D28; log 24). -/
def EngineFault.code : EngineFault → Nat
  | .decodeError _ _ => 1
  | .stackOverflow _ => 2

/-- STEP of a faulted core: the fault again, with no change (40_step_cycle.md R100, U20; log 7). -/
def stepFaulted (f : EngineFault) : Result := .fault (.engine f)

/-- STEP of a waiting core: a hold, with no change (40_step_cycle.md R100; log 14). -/
def stepWaiting (s : State) : Result := .next s

/-- STEP whose word decodes to nothing: `DecodeError` with the word and the fetch address, `PC` left advanced
(40_step_cycle.md R102, 60_exceptions.md R251; log 8). -/
def stepUndecoded (s : State) : Result := .next (s.advancePc.raiseFault (.decodeError s.fetchWord s.pc))

/-! The framebuffer and the XOR-plot engine (spec 45_display.md). -/

/-- The framebuffer during a DRW and whether a plotted pixel was lit so far (45_display.md R201). -/
structure Canvas where
  fb : Framebuffer
  hit : Bool
deriving DecidableEq, Repr

/-- One XOR-plot at column `c`, row `r`, with collision detection (45_display.md R201, R203). -/
def Canvas.plot (k : Canvas) (c : Fin 64) (r : Fin 32) : Canvas where
  fb := k.fb.set c (k.fb[c].set r (!k.fb[c][r]))
  hit := k.hit || k.fb[c][r]

/-- Pixel `j` of a sprite row `b` at (`cx`, `row`): plotted if its bit is set, the most significant bit leftmost, the
column wrapped mod 64 and the row mod 32 (45_display.md R201, R202). -/
def Canvas.plotBit (cx row : Nat) (b : Byte) (k : Canvas) (j : Nat) : Canvas :=
  if b.getLsbD (7 - j) then k.plot (Fin.ofNat 64 (cx + j)) (Fin.ofNat 32 row) else k

/-- The eight pixels of a sprite row (45_display.md R201). -/
def Canvas.plotRow (cx row : Nat) (b : Byte) (k : Canvas) : Canvas :=
  (List.range 8).foldl (Canvas.plotBit cx row b) k

/-- The first `n` rows of a sprite whose row `r` is the byte `rows r`, at column `cx` and row `cy` (45_display.md
R201). -/
def Canvas.plotSprite (cx cy : Nat) (rows : Nat → Byte) : Nat → Canvas → Canvas
  | 0, k => k
  | n + 1, k => Canvas.plotRow cx (cy + n) (rows n) (Canvas.plotSprite cx cy rows n k)

end Sys2Proof.Machine
end

