-- ==== Sys2Proof/Machine/Operands.lean ====
section
/-! DEFINITION. The operand forms (spec 30_encoding.md R72) and the results computed from operands: exact arithmetic on
naturals, narrowed at the end (00_scope.md R8, 43_load_alu.md R172). -/

namespace Sys2Proof.Machine

/-- `zext_16(nnn)` (30_encoding.md R72). -/
def addrOf (nnn : Addr12) : Word := nnn.setWidth 16

/-- `zext_16` of a byte (30_encoding.md R72). -/
def wordOfByte (b : Byte) : Word := b.setWidth 16

/-- `trunc_8(a + b)` (43_load_alu.md R161, R166). -/
def addBytes (a b : Byte) : Byte := BitVec.ofNat 8 (a.toNat + b.toNat)

/-- `trunc_8(a - b + 256)` (43_load_alu.md R167, R169). -/
def subBytes (a b : Byte) : Byte := BitVec.ofNat 8 (a.toNat + 256 - b.toNat)

/-- `a >> 1` (43_load_alu.md R168). -/
def shiftRight (a : Byte) : Byte := BitVec.ofNat 8 (a.toNat / 2)

/-- `trunc_8(a << 1)` (43_load_alu.md R170). -/
def shiftLeft (a : Byte) : Byte := BitVec.ofNat 8 (a.toNat * 2)

/-- `trunc_16(I + V[x])` (46_timer_memory.md R224). -/
def addToI (i : Word) (b : Byte) : Word := BitVec.ofNat 16 (i.toNat + b.toNat)

/-- `zext_16(V[x]) * 5`: the glyph of digit `d`, the same formula for `d` over 15 (46_timer_memory.md R225, D14; log 16). -/
def glyphAddr (d : Byte) : Word := BitVec.ofNat 16 (d.toNat * 5)

/-- The hundreds, tens and ones digits of a byte (46_timer_memory.md R226). -/
def bcdDigits (b : Byte) : List Byte :=
  [BitVec.ofNat 8 (b.toNat / 100), BitVec.ofNat 8 (b.toNat / 10 % 10), BitVec.ofNat 8 (b.toNat % 10)]

/-- `V[0]` to `V[x]`, in order (46_timer_memory.md R227). -/
def State.regsUpTo (s : State) (x : Reg) : List Byte := s.v.toList.take (x.val + 1)

/-- The registers with `V[0]` to `V[x]` read from memory at `base`, the others kept (46_timer_memory.md R228). -/
def State.regsFrom (s : State) (base : Word) (x : Reg) : Vector Byte 16 :=
  Vector.ofFn fun r => if r ≤ x then s.memRead (base + BitVec.ofNat 16 r.val) else s.v[r]

/-- Row `r` of the sprite at `base` (45_display.md R204). -/
def State.spriteRow (s : State) (base : Word) (r : Nat) : Byte := s.memRead (base + BitVec.ofNat 16 r)

/-- The pressed bit of key number `k`, and the state after: for `k` over 15 it is the free value `key_oob`
(42_skips.md R144, R146; log 10). -/
def State.keyPressed (s : State) (k : Byte) : Bool × State :=
  if h : k.toNat < 16 then (s.key[k.toNat], s) else (Config.keyOob s.draws, s.countDraw)

/-- A skip: 2 more on `PC` when the condition holds; the skipped word is not read (42_skips.md R140, R147). -/
def State.skipIf (s : State) (c : Bool) : State := s.setPc (if c then s.pc + 2 else s.pc)

end Sys2Proof.Machine
end

