-- ==== Sys2Proof/Machine/Flags.lean ====
section
/-! DEFINITION. The values `VF` takes as a flag (spec 10_state.md R23), and the one operation that writes a result and the
flag. -/

namespace Sys2Proof.Machine

/-- A flag is 1 or 0 (43_load_alu.md R166). -/
def flagOf (b : Bool) : Byte := if b then 1 else 0

/-- Carry of `a + b`: the exact sum exceeds 255 (43_load_alu.md R166). -/
def carryFlag (a b : Byte) : Byte := flagOf (decide (a.toNat + b.toNat > 255))

/-- No borrow in `a - b`: `a >= b` (43_load_alu.md R167, R169). -/
def noBorrowFlag (a b : Byte) : Byte := flagOf (decide (a.toNat ≥ b.toNat))

/-- The bit a right shift drops, bit 0 (43_load_alu.md R168). -/
def lowBitFlag (a : Byte) : Byte := flagOf (a.getLsbD 0)

/-- The bit a left shift drops, bit 7 (43_load_alu.md R170). -/
def highBitFlag (a : Byte) : Byte := flagOf (a.getLsbD 7)

/-- `V[x] <- result` and `VF <- flag`; for `x = F` instead `VF` is the free value `vf_clash` and nothing else is written
(43_load_alu.md R171, 10_state.md R24; log 9). -/
def State.setWithFlag (s : State) (x : Reg) (result flag : Byte) : State :=
  if x = VF then (s.setReg VF (Config.vfClash s.draws)).countDraw
  else (s.setReg x result).setReg VF flag

end Sys2Proof.Machine
end

