-- ==== Sys2Proof/Machine/Control.lean ====
section
/-! DEFINITION. Control transfer (spec 41_control_transfer.md). In every meaning `PC` already holds the fetch address plus 2
(40_step_cycle.md R101, R107). -/

namespace Sys2Proof.Machine

/-- SYS nnn: no effect (41_control_transfer.md R120). -/
def execSys (_nnn : Addr12) (s : State) : Result := .next s

/-- JP nnn (41_control_transfer.md R121). -/
def execJp (nnn : Addr12) (s : State) : Result := .next (s.setPc (addrOf nnn))

/-- CALL nnn (41_control_transfer.md R122); with a full stack it takes `StackOverflow` and writes nothing (R123; log 8). -/
def execCall (nnn : Addr12) (s : State) : Result :=
  if h : s.sp.toNat < 16 then .next ((s.push s.pc h).setPc (addrOf nnn))
  else .next (s.raiseFault (.stackOverflow s.fetchAddr))

/-- RET (41_control_transfer.md R124): a no-op on an empty stack; the popped entry is kept. An `SP` over 16, which no run
reaches, has no entry to read: log 20. -/
def execRet (s : State) : Result :=
  if s.sp = 0 then .next s
  else
    match s.stackEntry (s.sp.toNat - 1) with
    | some w => .next ((s.setSp (s.sp - 1)).setPc w)
    | none => .fault (.stackPointer s.sp)

/-- JP V0, nnn: the unreduced sum (41_control_transfer.md R125; log 6). -/
def execJpV0 (nnn : Addr12) (s : State) : Result := .next (s.setPc (addrOf nnn + wordOfByte (s.reg 0)))

end Sys2Proof.Machine
end

