-- ==== Sys2Proof/Machine/Display.lean ====
section
/-! DEFINITION. Display (spec 45_display.md). -/

namespace Sys2Proof.Machine

/-- CLS: every cell unlit, `VF` kept (45_display.md R200). -/
def execCls (s : State) : Result := .next (s.setFb Framebuffer.unlit)

/-- DRW Vx, Vy, n: `n` sprite rows from `I` plotted at (`V[x]`, `V[y]`), `VF` the collision (45_display.md
R201 to R204; log 21, log 32, log 33). -/
def execDrw (x y : Reg) (n : Fin 16) (s : State) : Result :=
  let k := Canvas.plotSprite (s.reg x).toNat (s.reg y).toNat (s.spriteRow s.i) n.val ⟨s.fb, false⟩
  .next ((s.setFb k.fb).setReg VF (flagOf k.hit))

end Sys2Proof.Machine
end

