-- ==== Sys2Proof/Machine/LoadAlu.lean ====
section
/-! DEFINITION. Register loads and the ALU (spec 43_load_alu.md). Operands are read before any write (40_step_cycle.md R104;
log 21). -/

namespace Sys2Proof.Machine

/-- LD Vx, kk (43_load_alu.md R160). -/
def execLdImm (x : Reg) (kk : Byte) (s : State) : Result := .next (s.setReg x kk)

/-- ADD Vx, kk: no flag (43_load_alu.md R161). -/
def execAddImm (x : Reg) (kk : Byte) (s : State) : Result := .next (s.setReg x (addBytes (s.reg x) kk))

/-- LD Vx, Vy (43_load_alu.md R162). -/
def execLdReg (x y : Reg) (s : State) : Result := .next (s.setReg x (s.reg y))

/-- OR Vx, Vy: no flag (43_load_alu.md R163). -/
def execOr (x y : Reg) (s : State) : Result := .next (s.setReg x (s.reg x ||| s.reg y))

/-- AND Vx, Vy: no flag (43_load_alu.md R164). -/
def execAnd (x y : Reg) (s : State) : Result := .next (s.setReg x (s.reg x &&& s.reg y))

/-- XOR Vx, Vy: no flag (43_load_alu.md R165). -/
def execXor (x y : Reg) (s : State) : Result := .next (s.setReg x (s.reg x ^^^ s.reg y))

/-- ADD Vx, Vy: `VF` is the carry out (43_load_alu.md R166, R171). -/
def execAddReg (x y : Reg) (s : State) : Result :=
  .next (s.setWithFlag x (addBytes (s.reg x) (s.reg y)) (carryFlag (s.reg x) (s.reg y)))

/-- SUB Vx, Vy: `VF` is 1 for no borrow (43_load_alu.md R167, R171). -/
def execSub (x y : Reg) (s : State) : Result :=
  .next (s.setWithFlag x (subBytes (s.reg x) (s.reg y)) (noBorrowFlag (s.reg x) (s.reg y)))

/-- SHR Vx, Vy: in place, `V[y]` not read (43_load_alu.md R168, R171). -/
def execShr (x _y : Reg) (s : State) : Result :=
  .next (s.setWithFlag x (shiftRight (s.reg x)) (lowBitFlag (s.reg x)))

/-- SUBN Vx, Vy: `VF` is 1 for no borrow in `V[y] - V[x]` (43_load_alu.md R169, R171). -/
def execSubn (x y : Reg) (s : State) : Result :=
  .next (s.setWithFlag x (subBytes (s.reg y) (s.reg x)) (noBorrowFlag (s.reg y) (s.reg x)))

/-- SHL Vx, Vy: in place, `V[y]` not read (43_load_alu.md R170, R171). -/
def execShl (x _y : Reg) (s : State) : Result :=
  .next (s.setWithFlag x (shiftLeft (s.reg x)) (highBitFlag (s.reg x)))

end Sys2Proof.Machine
end

