-- ==== Sys2Proof/Machine/Random.lean ====
section
/-! DEFINITION. Random (spec 44_random.md). -/

namespace Sys2Proof.Machine

/-- RND Vx, kk: the free value `rnd` under the mask (44_random.md R190; log 11). -/
def execRnd (x : Reg) (kk : Byte) (s : State) : Result :=
  .next (s.setReg x (Config.rnd s.draws &&& kk)).countDraw

end Sys2Proof.Machine
end

