-- ==== Sys2Proof/Machine/Skips.lean ====
section
/-! DEFINITION. Conditional skips (spec 42_skips.md). -/

namespace Sys2Proof.Machine

/-- SE Vx, kk (42_skips.md R140). -/
def execSeImm (x : Reg) (kk : Byte) (s : State) : Result := .next (s.skipIf (s.reg x == kk))

/-- SNE Vx, kk (42_skips.md R141). -/
def execSneImm (x : Reg) (kk : Byte) (s : State) : Result := .next (s.skipIf (s.reg x != kk))

/-- SE Vx, Vy (42_skips.md R142). -/
def execSeReg (x y : Reg) (s : State) : Result := .next (s.skipIf (s.reg x == s.reg y))

/-- SNE Vx, Vy (42_skips.md R143). -/
def execSneReg (x y : Reg) (s : State) : Result := .next (s.skipIf (s.reg x != s.reg y))

/-- SKP Vx (42_skips.md R144, R146). -/
def execSkp (x : Reg) (s : State) : Result :=
  match s.keyPressed (s.reg x) with
  | (p, s') => .next (s'.skipIf p)

/-- SKNP Vx (42_skips.md R145, R146). -/
def execSknp (x : Reg) (s : State) : Result :=
  match s.keyPressed (s.reg x) with
  | (p, s') => .next (s'.skipIf (!p))

end Sys2Proof.Machine
end

