-- ==== Sys2Proof/Machine/TimerMemory.lean ====
section
/-! DEFINITION. Timers, the key wait, `I` and the memory transfers (spec 46_timer_memory.md). -/

namespace Sys2Proof.Machine

/-- LD I, nnn (46_timer_memory.md R229; log 22). -/
def execLdI (nnn : Addr12) (s : State) : Result := .next (s.setI (addrOf nnn))

/-- LD Vx, DT (46_timer_memory.md R220). -/
def execLdVxDt (x : Reg) (s : State) : Result := .next (s.setReg x s.dt)

/-- LD Vx, K: the wait starts; SET_KEY writes `V[x]` (46_timer_memory.md R221, 60_exceptions.md R267). -/
def execLdVxK (x : Reg) (s : State) : Result := .next (s.setAwait (some x))

/-- LD DT, Vx (46_timer_memory.md R222). -/
def execLdDtVx (x : Reg) (s : State) : Result := .next (s.setDt (s.reg x))

/-- LD ST, Vx (46_timer_memory.md R223). -/
def execLdStVx (x : Reg) (s : State) : Result := .next (s.setSt (s.reg x))

/-- ADD I, Vx: no flag (46_timer_memory.md R224). -/
def execAddI (x : Reg) (s : State) : Result := .next (s.setI (addToI s.i (s.reg x)))

/-- LD F, Vx (46_timer_memory.md R225; log 16). -/
def execLdF (x : Reg) (s : State) : Result := .next (s.setI (glyphAddr (s.reg x)))

/-- LD B, Vx: three digits at `I` (46_timer_memory.md R226). -/
def execLdB (x : Reg) (s : State) : Result := .next (s.memWriteSeq s.i (bcdDigits (s.reg x)))

/-- LD [I], Vx: `V[0..x]` at `I`, `I` kept (46_timer_memory.md R227; log 17). -/
def execStRegs (x : Reg) (s : State) : Result := .next (s.memWriteSeq s.i (s.regsUpTo x))

/-- LD Vx, [I]: `V[0..x]` from `I`, `I` kept (46_timer_memory.md R228; log 17). -/
def execLdRegs (x : Reg) (s : State) : Result := .next (s.setRegs (s.regsFrom s.i x))

end Sys2Proof.Machine
end

