-- ==== Sys2Proof/Machine/Step.lean ====
section
/-! DEFINITION. STEP (spec 40_step_cycle.md R100): the hidden state is tested first, `FAULT` before `AWAIT`; then fetch,
decode and execute. -/

namespace Sys2Proof.Machine

/-- One STEP (40_step_cycle.md R100 to R103; log 7, log 8, log 14). -/
def step (s : State) : Host.Outcome State Fault Refusal :=
  match s.fault, s.await with
  | some f, _ => stepFaulted f
  | none, some _ => stepWaiting s
  | none, none =>
    match decode s.fetchWord with
    | .ok i => exec i s.advancePc
    | .error _ => stepUndecoded s

/-- `s`, neither faulted nor waiting, with the instruction whose bits are `w` stored where the next fetch reads it: at `PC`,
in memory order (20_memory.md R52). It stands for the host's LOAD of a program: log 23. -/
def State.withFetchWord (s : State) (nbits w : Nat) : State :=
  ((s.memWriteSeq s.pc (wordBytes (tableWord nbits w))).setAwait none).setFault none

end Sys2Proof.Machine
end

