-- ==== Sys2Proof/Machine/HostPort.lean ====
section
/-! DEFINITION. The host's operations on the core (spec 60_exceptions.md R265), each atomic; `step` is the one among them
that runs an instruction. The order of operations is the host's: a schedule is any list of them (D25; log 13). -/

namespace Sys2Proof.Machine

/-- An operation of 60_exceptions.md R265. A key number has 4 bits (R266, D18; log 24). -/
inductive HostOp where
  /-- RESET (70_reset_and_hazards.md R290) -/
  | reset
  /-- LOAD(bytes) (60_exceptions.md R271) -/
  | load (image : List Byte)
  /-- STEP (40_step_cycle.md R100) -/
  | step
  /-- TICK (60_exceptions.md R261) -/
  | tick
  /-- SET_KEY(k, b) (60_exceptions.md R266, R267) -/
  | setKey (k : Fin 16) (pressed : Bool)
  /-- read (60_exceptions.md R268) -/
  | read
deriving DecidableEq, Repr

/-- What an operation returns to the host. -/
inductive Reply where
  /-- the operation has no result -/
  | done
  /-- STEP: an instruction executed (40_step_cycle.md R105) -/
  | ok
  /-- STEP: the hold of a waiting core (40_step_cycle.md R105) -/
  | waiting
  /-- STEP: an engine fault (40_step_cycle.md R105) -/
  | err (f : EngineFault)
  /-- read: the state, of which the host takes what it wants (60_exceptions.md R268) -/
  | view (s : State)
deriving DecidableEq, Repr

/-- The outcome of a host operation: the state after and the reply. -/
abbrev HostResult := Host.Outcome (State × Reply) Fault Refusal

/-- RESET, from any state, of a machine whose `FONT` is `font` (70_reset_and_hazards.md R290, D30; log 29, log 3). The model's
own count of draws goes on, so that no free value is taken twice (log 12). -/
def State.resetOp (s : State) (font : Font) : State := { State.resetWith font with draws := s.draws }

/-- A timer after a tick: 1 less, never below 0 (60_exceptions.md R261). -/
def tickTimer (t : Byte) : Byte := if t = 0 then 0 else t - 1

/-- TICK (60_exceptions.md R261). -/
def State.tick (s : State) : State := (s.setDt (tickTimer s.dt)).setSt (tickTimer s.st)

/-- SET_KEY(k, b) (60_exceptions.md R266, R267): a press of a released key ends a wait (D16; log 15). -/
def State.setKey (s : State) (k : Fin 16) (b : Bool) : State :=
  match s.await with
  | some x =>
    if b && !s.key[k] then ((s.setKeyBit k b).setReg x (BitVec.ofNat 8 k.val)).setAwait none
    else s.setKeyBit k b
  | none => s.setKeyBit k b

/-- LOAD(bytes): memory only; an image over 0xE00 bytes is refused (60_exceptions.md R271, D19; log 19). -/
def loadOp (image : List Byte) (s : State) : HostResult :=
  if image.length ≤ Config.programMax then .next (s.memWriteSeq Config.programBase image, .done)
  else .refused (.loadTooLong image.length)

/-- The result of a STEP that ran: an engine fault it raised, else `Ok` (40_step_cycle.md R105). -/
def stepReply (s : State) : Reply :=
  match s.fault with
  | some f => .err f
  | none => .ok

/-- STEP with its result (40_step_cycle.md R100, R105): `step`, where the fault of a core already faulted is the reply
`Err(FAULT)` with the state as it was. -/
def stepOp (s : State) : HostResult :=
  match step s with
  | .next t => .next (t, if s.await.isSome then .waiting else stepReply t)
  | .fault (.engine f) => .next (s, .err f)
  | .fault r => .fault r
  | .refused r => .refused r

/-- One host operation (60_exceptions.md R265) on a machine whose `FONT` is `font` (00_scope.md R7). -/
def hostOp (font : Font) (op : HostOp) (s : State) : HostResult :=
  match op with
  | .reset => .next (s.resetOp font, .done)
  | .load image => loadOp image s
  | .step => stepOp s
  | .tick => .next (s.tick, .done)
  | .setKey k b => .next (s.setKey k b, .done)
  | .read => .next (s, .view s)

/-- The state after a schedule of host operations on a machine whose `FONT` is `font`, in order, stopping at
the first that does not answer a state. -/
def hostRun (font : Font) (ops : List HostOp) (s : State) : Result :=
  match ops with
  | [] => .next s
  | op :: rest =>
    match hostOp font op s with
    | .next (t, _) => hostRun font rest t
    | .fault r => .fault r
    | .refused r => .refused r

end Sys2Proof.Machine
end

