-- ==== Sys2Proof/Safety.lean ====
section
/-! DEFINITION. What counts as a safe state and run, and the terms claims use: which parts of the state stay as they were. -/

namespace Sys2Proof.Machine

/-- The core has not gone wrong: a run that reaches the faulted state has (spec 60_exceptions.md R252). -/
abbrev State.Safe (s : State) : Prop := s.fault = none

/-- Neither waiting nor faulted: a STEP fetches (40_step_cycle.md R100). -/
abbrev State.Running (s : State) : Prop := s.fault = none ∧ s.await = none

/-- `SP` never exceeds 16 (10_state.md R28). -/
abbrev State.SpLegal (s : State) : Prop := s.sp.toNat ≤ 16

/-- A recorded engine fault is a true record (60_exceptions.md R251, R253, R255): the word decodes to nothing, or the stack
is full, and `PC` stands 2 past the recorded fetch address. -/
abbrev State.FaultTrue (s : State) : Prop :=
  match s.fault with
  | none => True
  | some (.decodeError w a) => decode w = .error (.unassigned w) ∧ s.pc = a + 2
  | some (.stackOverflow a) => s.sp.toNat = 16 ∧ s.pc = a + 2

/-- The invariant of the core: memory in canonical form, `SP` legal (10_state.md R28), `FAULT` and `AWAIT` never both set
(60_exceptions.md R256), the fault record true. -/
structure State.Inv (s : State) : Prop where
  memory : Memory.wf s.mem = true
  stack : s.SpLegal
  exclusive : s.fault = none ∨ s.await = none
  record : s.FaultTrue

/-- Every register but those in `xs` is as before. -/
abbrev SameRegsBut (xs : List Reg) (s t : State) : Prop := ∀ r : Reg, r ∉ xs → t.v[r] = s.v[r]

/-- Every byte of memory reads as before. -/
abbrev SameMemory (s t : State) : Prop := ∀ a : Word, t.memRead a = s.memRead a

/-- Every byte of memory outside the `k` bytes stored from `base` on (each address reduced) reads as before. -/
abbrev SameMemoryBut (base : Word) (k : Nat) (s t : State) : Prop :=
  ∀ a : Word, (∀ j < k, memCell a ≠ memCell (base + BitVec.ofNat 16 j)) → t.memRead a = s.memRead a

/-- The return stack and its pointer are as before. -/
abbrev SameStack (s t : State) : Prop := t.sp = s.sp ∧ t.stack = s.stack

/-- The timers are as before. -/
abbrev SameTimers (s t : State) : Prop := t.dt = s.dt ∧ t.st = s.st

/-- The framebuffer and the keys are as before. -/
abbrev SameScreenKeys (s t : State) : Prop := t.fb = s.fb ∧ t.key = s.key

/-- The hidden state `AWAIT` and `FAULT` is as before. -/
abbrev SameHidden (s t : State) : Prop := t.await = s.await ∧ t.fault = s.fault

/-- No free value was taken (40_step_cycle.md R108). -/
abbrev NoDraw (s t : State) : Prop := t.draws = s.draws

/-- Everything but the general registers and the count of free values is as before. -/
abbrev SameBeyondRegs (s t : State) : Prop :=
  t.i = s.i ∧ t.pc = s.pc ∧ SameStack s t ∧ SameTimers s t ∧ SameMemory s t ∧ SameScreenKeys s t ∧ SameHidden s t

/-- Everything but `PC` and the count of free values is as before. -/
abbrev SameButPc (s t : State) : Prop :=
  t.v = s.v ∧ t.i = s.i ∧ SameStack s t ∧ SameTimers s t ∧ SameMemory s t ∧ SameScreenKeys s t ∧ SameHidden s t

/-- The registers an instruction may write, as its destination or as the flag (10_state.md R23). LD Vx, K writes none: SET_KEY
does (46_timer_memory.md R221). -/
def regsWritten : Instr → List Reg
  | .cls => []
  | .ret => []
  | .sys _ => []
  | .jp _ => []
  | .call _ => []
  | .seImm _ _ => []
  | .sneImm _ _ => []
  | .seReg _ _ => []
  | .ldImm x _ => [x]
  | .addImm x _ => [x]
  | .ldReg x _ => [x]
  | .or x _ => [x]
  | .and x _ => [x]
  | .xor x _ => [x]
  | .addReg x _ => [x, VF]
  | .sub x _ => [x, VF]
  | .shr x _ => [x, VF]
  | .subn x _ => [x, VF]
  | .shl x _ => [x, VF]
  | .sneReg _ _ => []
  | .ldI _ => []
  | .jpV0 _ => []
  | .rnd x _ => [x]
  | .drw _ _ _ => [VF]
  | .skp _ => []
  | .sknp _ => []
  | .ldVxDt x => [x]
  | .ldVxK _ => []
  | .ldDtVx _ => []
  | .ldStVx _ => []
  | .addI _ => []
  | .ldF _ => []
  | .ldB _ => []
  | .stRegs _ => []
  | .ldRegs x => (List.finRange 16).filter (· ≤ x)

/-- The pressed bit SKP and SKNP test for key number `k`: the key, or for `k` over 15 the free value the state takes next
(42_skips.md R144, R146). -/
def pressedBit (s : State) (k : Byte) : Bool :=
  if h : k.toNat < 16 then s.key[k.toNat] else Config.keyOob s.draws

/-- `PC` after a STEP that runs `i` from the state `s` before its fetch: the table of 40_step_cycle.md R106, with `p` the
value after the fetch. A RET with an `SP` over 16, which no run reaches, has no row. -/
def pcAfter (i : Instr) (s : State) : Word :=
  let p := s.pc + 2
  match i with
  | .jp nnn => nnn.setWidth 16
  | .jpV0 nnn => nnn.setWidth 16 + (s.v[(0 : Reg)]).setWidth 16
  | .call nnn => if s.sp.toNat < 16 then nnn.setWidth 16 else p
  | .ret => if s.sp = 0 then p else s.stack[s.sp.toNat - 1]?.getD p
  | .seImm x kk => if s.v[x] = kk then p + 2 else p
  | .sneImm x kk => if s.v[x] ≠ kk then p + 2 else p
  | .seReg x y => if s.v[x] = s.v[y] then p + 2 else p
  | .sneReg x y => if s.v[x] ≠ s.v[y] then p + 2 else p
  | .skp x => if pressedBit s s.v[x] = true then p + 2 else p
  | .sknp x => if pressedBit s s.v[x] = false then p + 2 else p
  | .cls => p
  | .sys _ => p
  | .ldImm _ _ => p
  | .addImm _ _ => p
  | .ldReg _ _ => p
  | .or _ _ => p
  | .and _ _ => p
  | .xor _ _ => p
  | .addReg _ _ => p
  | .sub _ _ => p
  | .shr _ _ => p
  | .subn _ _ => p
  | .shl _ _ => p
  | .ldI _ => p
  | .rnd _ _ => p
  | .drw _ _ _ => p
  | .ldVxDt _ => p
  | .ldVxK _ => p
  | .ldDtVx _ => p
  | .ldStVx _ => p
  | .addI _ => p
  | .ldF _ => p
  | .ldB _ => p
  | .stRegs _ => p
  | .ldRegs _ => p

/-- A sprite of `n` rows at (`cx`, `cy`) plots the pixel (`c`, `r`): some row `i` has a set bit `7 - j` that lands there
(45_display.md R201, R202). -/
def Plots (cx cy : Nat) (rows : Nat → Byte) (n : Nat) (c : Fin 64) (r : Fin 32) : Prop :=
  ∃ i < n, ∃ j < 8, (rows i).getLsbD (7 - j) = true ∧ c = Fin.ofNat 64 (cx + j) ∧ r = Fin.ofNat 32 (cy + i)

/-- Instructions executed one after another at the `execute` level, without fetches (40_step_cycle.md R107). -/
def execAll (is : List Instr) (s : State) : Result :=
  match is with
  | [] => .next s
  | i :: rest =>
    match exec i s with
    | .next t => execAll rest t
    | .fault r => .fault r
    | .refused r => .refused r

end Sys2Proof.Machine
end

