-- ==== Sys2Proof/Certificates/Slice0/Obligations.lean ====
section
/-! DEFINITION. The statements for the provers. `exec` takes the state after the fetch's advance of `PC` (spec
40_step_cycle.md R107), so `s.pc` below is the fetch address plus 2. "log n" is notes/assumptions/n.md. -/

open Sys2Proof Sys2Proof.Machine

/-! Encoding and decoding (30_encoding.md). -/

/-- Words written out from the pattern column of R74, at least one of each of the sixteen classes (the value of the top nibble,
R70), decode to the instruction they stand for, and 0x5121 to none. -/
def Obligations.SampleWordsDecode : Prop :=
  decode 0x00E0 = .ok .cls ∧ decode 0x00EE = .ok .ret ∧ decode 0x00E1 = .ok (.sys 0x0E1) ∧
  decode 0x1ABC = .ok (.jp 0xABC) ∧ decode 0x2FFF = .ok (.call 0xFFF) ∧ decode 0x3A7F = .ok (.seImm 0xA 0x7F) ∧
  decode 0x4001 = .ok (.sneImm 0 0x01) ∧ decode 0x5120 = .ok (.seReg 1 2) ∧ decode 0x6FFE = .ok (.ldImm 0xF 0xFE) ∧
  decode 0x7E01 = .ok (.addImm 0xE 0x01) ∧ decode 0x8AB6 = .ok (.shr 0xA 0xB) ∧ decode 0x9120 = .ok (.sneReg 1 2) ∧
  decode 0xA123 = .ok (.ldI 0x123) ∧ decode 0xBFFE = .ok (.jpV0 0xFFE) ∧
  decode 0xC5A5 = .ok (.rnd 5 0xA5) ∧ decode 0xD123 = .ok (.drw 1 2 3) ∧ decode 0xE1A1 = .ok (.sknp 1) ∧
  decode 0xF165 = .ok (.ldRegs 1) ∧ decode 0x5121 = .error (.unassigned 0x5121)

/-- Decoding the bytes of a well-formed instruction gives it back, every operand included, and leaves the bytes after it.
For SYS that takes in 00FE, 00FF and 00Cn: the model's choice, log 34. -/
def Obligations.DecodeUndoesEncode : Prop :=
  ∀ i : Instr, WellFormed i →
    decode (encode i) = .ok i ∧ ∀ rest : List Byte, decodeBytes (encodeBytes i ++ rest) = .ok (i, rest)

/-- A word that decodes is the encoding of what it decodes to: each instruction has one word. For SYS that takes
in 00FE, 00FF and 00Cn: the model's choice, log 34. -/
def Obligations.EncodeUndoesDecode : Prop :=
  ∀ (w : Word) (i : Instr), decode w = .ok i → encode i = w ∧ WellFormed i

/-- Class 0 in full (R75): CLS and RET before SYS. It takes 00FE, 00FF and 00Cn for SYS, against R80's last sentence: the model's
choice, log 34. -/
def Obligations.ClassZeroDecodesInFull : Prop :=
  ∀ nnn : Addr12, decode (wordNnn 0x0 nnn) =
    .ok (if nnn = 0x0E0 then .cls else if nnn = 0x0EE then .ret else .sys nnn)

/-- The classes 5, 8 and 9 check the low nibble (R76), the classes E and F the low byte (R77); anything else in them is
rejected, with the word. -/
def Obligations.CheckedClassesDecodeInFull : Prop :=
  (∀ (x y : Reg) (n : BitVec 4),
    decode (wordXYN 0x5 x y n) = (if n = 0 then .ok (.seReg x y) else .error (.unassigned (wordXYN 0x5 x y n))) ∧
    decode (wordXYN 0x9 x y n) = (if n = 0 then .ok (.sneReg x y) else .error (.unassigned (wordXYN 0x9 x y n))) ∧
    decode (wordXYN 0x8 x y n) =
      (if n = 0x0 then .ok (.ldReg x y) else if n = 0x1 then .ok (.or x y) else if n = 0x2 then .ok (.and x y)
       else if n = 0x3 then .ok (.xor x y) else if n = 0x4 then .ok (.addReg x y) else if n = 0x5 then .ok (.sub x y)
       else if n = 0x6 then .ok (.shr x y) else if n = 0x7 then .ok (.subn x y) else if n = 0xE then .ok (.shl x y)
       else .error (.unassigned (wordXYN 0x8 x y n)))) ∧
  (∀ (x : Reg) (kk : Byte),
    decode (wordXKk 0xE x kk) =
      (if kk = 0x9E then .ok (.skp x) else if kk = 0xA1 then .ok (.sknp x)
       else .error (.unassigned (wordXKk 0xE x kk))) ∧
    decode (wordXKk 0xF x kk) =
      (if kk = 0x07 then .ok (.ldVxDt x) else if kk = 0x0A then .ok (.ldVxK x) else if kk = 0x15 then .ok (.ldDtVx x)
       else if kk = 0x18 then .ok (.ldStVx x) else if kk = 0x1E then .ok (.addI x) else if kk = 0x29 then .ok (.ldF x)
       else if kk = 0x33 then .ok (.ldB x) else if kk = 0x55 then .ok (.stRegs x) else if kk = 0x65 then .ok (.ldRegs x)
       else .error (.unassigned (wordXKk 0xF x kk))))

/-- The classes 1 to 4, 6, 7 and A to D decode whatever their operand bits are (R78), the zero-row DRW included. -/
def Obligations.OpenClassesDecodeWhole : Prop :=
  (∀ nnn : Addr12, decode (wordNnn 0x1 nnn) = .ok (.jp nnn) ∧ decode (wordNnn 0x2 nnn) = .ok (.call nnn) ∧
    decode (wordNnn 0xA nnn) = .ok (.ldI nnn) ∧ decode (wordNnn 0xB nnn) = .ok (.jpV0 nnn)) ∧
  (∀ (x : Reg) (kk : Byte), decode (wordXKk 0x3 x kk) = .ok (.seImm x kk) ∧
    decode (wordXKk 0x4 x kk) = .ok (.sneImm x kk) ∧ decode (wordXKk 0x6 x kk) = .ok (.ldImm x kk) ∧
    decode (wordXKk 0x7 x kk) = .ok (.addImm x kk) ∧ decode (wordXKk 0xC x kk) = .ok (.rnd x kk)) ∧
  (∀ (x y : Reg) (n : Fin 16), decode (wordXYN 0xD x y (toNibble n)) = .ok (.drw x y n))

/-- Two rows of the table that accept one word are SYS and one of CLS and RET (R74: "Only class 0 has overlapping rows"). -/
def Obligations.OnlyClassZeroRowsOverlap : Prop :=
  ∀ (w : Word) (a b : Row), a ∈ opcodeRows → b ∈ opcodeRows → a.accepts w = true → b.accepts w = true →
    a.mnemonic ≠ b.mnemonic →
    (a.mnemonic = "SYS" ∧ b.mnemonic ∈ ["CLS", "RET"]) ∨ (b.mnemonic = "SYS" ∧ a.mnemonic ∈ ["CLS", "RET"])

/-! The step cycle (40_step_cycle.md). -/

/-- STEP of a running core whose two bytes at `PC`, high byte first (the model's byte order is log 1), decode to `i` is the
execution of `i` on the state with `PC` advanced by 2 (R100 to R103). -/
def Obligations.StepRunsTheDecodedInstruction : Prop :=
  ∀ (s : State) (i : Instr), s.Running → decode (s.memRead s.pc ++ s.memRead (s.pc + 1)) = .ok i →
    step s = exec i { s with pc := s.pc + 2 }

/-- STEP of a running core whose word decodes to nothing takes `DecodeError` with the word and its address, and leaves `PC`
advanced (R102, 60_exceptions.md R251; the spec's decision D8, log 8). -/
def Obligations.StepTakesTheDecodeError : Prop :=
  ∀ (s : State) (e : DecodeReject), s.Running → decode (s.memRead s.pc ++ s.memRead (s.pc + 1)) = .error e →
    step s = .next { s with
      pc := s.pc + 2, fault := some (.decodeError (s.memRead s.pc ++ s.memRead (s.pc + 1)) s.pc) }

/-- STEP of a faulted core reports the fault again and STEP of a waiting core holds; neither changes anything (R100, R105; the
spec's decisions D10 and D17; log 7 for the outcome `fault`, log 14). -/
def Obligations.FaultedAndWaitingStepsChangeNothing : Prop :=
  (∀ (font : Font) (s : State) (f : EngineFault), s.fault = some f →
    step s = .fault (.engine f) ∧ hostOp font .step s = .next (s, .err f)) ∧
  (∀ (font : Font) (s : State) (x : Reg), s.fault = none → s.await = some x →
    step s = .next s ∧ hostOp font .step s = .next (s, .waiting))

/-- Where `PC` goes after each instruction: every row of R106 (derived by the spec), from the state before the fetch. -/
def Obligations.PcAfterEveryInstruction : Prop :=
  ∀ (s : State) (i : Instr), s.Running → s.SpLegal → decode (s.memRead s.pc ++ s.memRead (s.pc + 1)) = .ok i →
    ∃ t, step s = .next t ∧ t.pc = pcAfter i s

/-! Control transfer (41_control_transfer.md). -/

/-- SYS has no effect (R120); JP sets `PC` (R121). That SYS takes 00FE, 00FF and 00Cn like every other word of class 0, against
R80's last sentence, is the model's choice, log 34. -/
def Obligations.SysDoesNothingAndJumpSetsPc : Prop :=
  ∀ nnn : Addr12,
    (nnn ≠ 0x0E0 → nnn ≠ 0x0EE → decode (wordNnn 0x0 nnn) = .ok (.sys nnn)) ∧
    decode (wordNnn 0x1 nnn) = .ok (.jp nnn) ∧
    ∀ s : State, exec (.sys nnn) s = .next s ∧
      ∃ t, exec (.jp nnn) s = .next t ∧ t.pc.toNat = nnn.toNat ∧ SameButPc s t ∧ NoDraw s t

/-- CALL pushes `PC` and jumps, or with a full stack raises `StackOverflow` (R122). That the record holds the fetch address is
the spec's decision D9, log 8; that the CALL which raises it answers a next state is the model's choice, log 7. -/
def Obligations.CallPushesOrRaises : Prop :=
  ∀ nnn : Addr12, decode (wordNnn 0x2 nnn) = .ok (.call nnn) ∧ ∀ s : State,
    (∀ j : Fin 16, s.sp.toNat = j.val →
      ∃ t, exec (.call nnn) s = .next t ∧ t.stack[j] = s.pc ∧ (∀ k : Fin 16, k ≠ j → t.stack[k] = s.stack[k]) ∧
        t.sp.toNat = j.val + 1 ∧ t.pc.toNat = nnn.toNat ∧ t.v = s.v ∧ t.i = s.i ∧ SameTimers s t ∧ SameMemory s t ∧
        SameScreenKeys s t ∧ SameHidden s t ∧ NoDraw s t) ∧
    (16 ≤ s.sp.toNat → ∃ t, exec (.call nnn) s = .next t ∧ t.fault = some (.stackOverflow (s.pc - 2)))

/-- A CALL that overflows writes nothing but the fault record (R123, 60_exceptions.md R253; the spec's decision D9, log 8). -/
def Obligations.CallOverflowWritesNothing : Prop :=
  ∀ (nnn : Addr12) (s : State), 16 ≤ s.sp.toNat →
    exec (.call nnn) s = .next { s with fault := some (.stackOverflow (s.pc - 2)) }

/-- RET on an empty stack is a no-op; otherwise it pops, and the popped entry stays (R124). -/
def Obligations.RetPopsOrDoesNothing : Prop :=
  decode 0x00EE = .ok .ret ∧ ∀ s : State,
    (s.sp = 0 → exec .ret s = .next s) ∧
    (∀ j : Fin 16, s.sp.toNat = j.val + 1 →
      ∃ t, exec .ret s = .next t ∧ t.sp.toNat = j.val ∧ t.pc = s.stack[j] ∧ t.stack = s.stack ∧ t.v = s.v ∧ t.i = s.i ∧
        SameTimers s t ∧ SameMemory s t ∧ SameScreenKeys s t ∧ SameHidden s t ∧ NoDraw s t)

/-- RET with an `SP` over 16, which no run reaches (10_state.md R28), stops under its own name: the model's choice, log 20. -/
def Obligations.RetWithIllegalSpStops : Prop :=
  ∀ s : State, 16 < s.sp.toNat → exec .ret s = .fault (.stackPointer s.sp)

/-- JP V0, nnn sets `PC` to the exact sum, at most 0x10FE, always with `V0` (R125). That a sum over 0xFFF stays unreduced in `PC`
is the spec's decision D7, log 6. -/
def Obligations.JumpV0SetsPcToTheSum : Prop :=
  ∀ nnn : Addr12, decode (wordNnn 0xB nnn) = .ok (.jpV0 nnn) ∧ ∀ s : State,
    ∃ t, exec (.jpV0 nnn) s = .next t ∧ t.pc.toNat = nnn.toNat + (s.v[(0 : Reg)]).toNat ∧ t.pc.toNat ≤ 0x10FE ∧
      SameButPc s t ∧ NoDraw s t

/-- Up to 16 CALLs and as many RETs leave `PC` and `SP` where they were and change no register or memory; a 17th CALL raises
`StackOverflow` (R127, R300, 95_test_vectors.md L1-7; read at the `execute` level, D33, log 30). -/
def Obligations.CallsAndReturnsBalance : Prop :=
  (∀ (s : State) (targets : List Addr12), s.sp.toNat + targets.length ≤ 16 →
    ∃ t, execAll (targets.map Instr.call ++ List.replicate targets.length Instr.ret) s = .next t ∧
      t.pc = s.pc ∧ t.sp = s.sp ∧ t.v = s.v ∧ t.i = s.i ∧ SameMemory s t ∧ SameHidden s t) ∧
  (∀ (s : State) (targets : List Addr12) (last : Addr12), s.sp = 0 → targets.length = 16 →
    ∃ t a, execAll (targets.map Instr.call ++ [Instr.call last]) s = .next t ∧ t.fault = some (.stackOverflow a) ∧
      t.sp.toNat = 16)

/-! Skips (42_skips.md). -/

/-- The four comparing skips add 2 to `PC` when their condition holds and write nothing else (R140 to R143). -/
def Obligations.ComparingSkipsAddTwo : Prop :=
  ∀ (x y : Reg) (kk : Byte),
    decode (wordXKk 0x3 x kk) = .ok (.seImm x kk) ∧ decode (wordXKk 0x4 x kk) = .ok (.sneImm x kk) ∧
    decode (wordXYN 0x5 x y 0) = .ok (.seReg x y) ∧ decode (wordXYN 0x9 x y 0) = .ok (.sneReg x y) ∧
    (∀ n : BitVec 4, n ≠ 0 → decode (wordXYN 0x5 x y n) = .error (.unassigned (wordXYN 0x5 x y n)) ∧
      decode (wordXYN 0x9 x y n) = .error (.unassigned (wordXYN 0x9 x y n))) ∧
    ∀ s : State,
      (∃ t, exec (.seImm x kk) s = .next t ∧ t.pc = (if s.v[x] = kk then s.pc + 2 else s.pc) ∧ SameButPc s t ∧
        NoDraw s t) ∧
      (∃ t, exec (.sneImm x kk) s = .next t ∧ t.pc = (if s.v[x] = kk then s.pc else s.pc + 2) ∧ SameButPc s t ∧
        NoDraw s t) ∧
      (∃ t, exec (.seReg x y) s = .next t ∧ t.pc = (if s.v[x] = s.v[y] then s.pc + 2 else s.pc) ∧ SameButPc s t ∧
        NoDraw s t) ∧
      (∃ t, exec (.sneReg x y) s = .next t ∧ t.pc = (if s.v[x] = s.v[y] then s.pc else s.pc + 2) ∧ SameButPc s t ∧
        NoDraw s t)

/-- SKP and SKNP on a key number `k` of 0 to 15 skip on the key the host drives (R144, R145); other key numbers are
`KeyNumberOver15SkipsEitherWay`. -/
def Obligations.KeySkipsReadTheKey : Prop :=
  ∀ x : Reg, decode (wordXKk 0xE x 0x9E) = .ok (.skp x) ∧ decode (wordXKk 0xE x 0xA1) = .ok (.sknp x) ∧
    ∀ (s : State) (k : Fin 16), (s.v[x]).toNat = k.val →
      (∃ t, exec (.skp x) s = .next t ∧ t.pc = (if s.key[k] = true then s.pc + 2 else s.pc) ∧ SameButPc s t ∧
        NoDraw s t) ∧
      (∃ t, exec (.sknp x) s = .next t ∧ t.pc = (if s.key[k] = true then s.pc else s.pc + 2) ∧ SameButPc s t ∧
        NoDraw s t)

/-- With a key number over 15 the pressed bit is the next free value, whatever it is: the skip completes, takes one draw and
writes nothing but `PC` (R146; the spec's decision D13, log 10). -/
def Obligations.KeyNumberOver15SkipsEitherWay : Prop :=
  ∀ (x : Reg) (s : State), 15 < (s.v[x]).toNat →
    (∃ t, exec (.skp x) s = .next t ∧ t.pc = (if Config.keyOob s.draws = true then s.pc + 2 else s.pc) ∧ SameButPc s t ∧
      t.draws = s.draws + 1) ∧
    (∃ t, exec (.sknp x) s = .next t ∧ t.pc = (if Config.keyOob s.draws = true then s.pc else s.pc + 2) ∧ SameButPc s t ∧
      t.draws = s.draws + 1)

/-! Loads and ALU (43_load_alu.md). -/

/-- LD Vx, kk and LD Vx, Vy (R160, R162). -/
def Obligations.LoadsCopyIntoTheRegister : Prop :=
  ∀ (x y : Reg) (kk : Byte),
    decode (wordXKk 0x6 x kk) = .ok (.ldImm x kk) ∧ decode (wordXYN 0x8 x y 0x0) = .ok (.ldReg x y) ∧ ∀ s : State,
      (∃ t, exec (.ldImm x kk) s = .next t ∧ t.v[x] = kk ∧ SameRegsBut [x] s t ∧ SameBeyondRegs s t ∧ NoDraw s t) ∧
      (∃ t, exec (.ldReg x y) s = .next t ∧ t.v[x] = s.v[y] ∧ SameRegsBut [x] s t ∧ SameBeyondRegs s t ∧ NoDraw s t)

/-- ADD Vx, kk wraps mod 256 and leaves `VF` unless `x` names it (R161). -/
def Obligations.AddLiteralWrapsWithoutFlag : Prop :=
  ∀ (x : Reg) (kk : Byte), decode (wordXKk 0x7 x kk) = .ok (.addImm x kk) ∧ ∀ s : State,
    ∃ t, exec (.addImm x kk) s = .next t ∧ (t.v[x]).toNat = ((s.v[x]).toNat + kk.toNat) % 256 ∧
      SameRegsBut [x] s t ∧ SameBeyondRegs s t ∧ NoDraw s t

/-- OR, AND and XOR act bit by bit and write no flag (R163, R164, R165). -/
def Obligations.BitwiseOpsActBitByBit : Prop :=
  ∀ x y : Reg, decode (wordXYN 0x8 x y 0x1) = .ok (.or x y) ∧ decode (wordXYN 0x8 x y 0x2) = .ok (.and x y) ∧
    decode (wordXYN 0x8 x y 0x3) = .ok (.xor x y) ∧ ∀ s : State,
      (∃ t, exec (.or x y) s = .next t ∧
        (∀ b < 8, (t.v[x]).getLsbD b = ((s.v[x]).getLsbD b || (s.v[y]).getLsbD b)) ∧
        SameRegsBut [x] s t ∧ SameBeyondRegs s t ∧ NoDraw s t) ∧
      (∃ t, exec (.and x y) s = .next t ∧
        (∀ b < 8, (t.v[x]).getLsbD b = ((s.v[x]).getLsbD b && (s.v[y]).getLsbD b)) ∧
        SameRegsBut [x] s t ∧ SameBeyondRegs s t ∧ NoDraw s t) ∧
      (∃ t, exec (.xor x y) s = .next t ∧
        (∀ b < 8, (t.v[x]).getLsbD b = ((s.v[x]).getLsbD b != (s.v[y]).getLsbD b)) ∧
        SameRegsBut [x] s t ∧ SameBeyondRegs s t ∧ NoDraw s t)

/-- ADD, SUB and SUBN of registers wrap mod 256 and put the carry or the not-borrow in `VF` (R166, R167, R169). A destination
`VF` is `VfAsDestinationAndFlagIsFree`. -/
def Obligations.AddAndSubtractSetTheFlag : Prop :=
  ∀ x y : Reg, decode (wordXYN 0x8 x y 0x4) = .ok (.addReg x y) ∧ decode (wordXYN 0x8 x y 0x5) = .ok (.sub x y) ∧
    decode (wordXYN 0x8 x y 0x7) = .ok (.subn x y) ∧ ∀ s : State, x ≠ VF →
      (∃ t, exec (.addReg x y) s = .next t ∧ t.v[x] = s.v[x] + s.v[y] ∧
        t.v[VF] = (if 255 < (s.v[x]).toNat + (s.v[y]).toNat then 1 else 0) ∧
        SameRegsBut [x, VF] s t ∧ SameBeyondRegs s t ∧ NoDraw s t) ∧
      (∃ t, exec (.sub x y) s = .next t ∧ t.v[x] = s.v[x] - s.v[y] ∧
        t.v[VF] = (if (s.v[y]).toNat ≤ (s.v[x]).toNat then 1 else 0) ∧
        SameRegsBut [x, VF] s t ∧ SameBeyondRegs s t ∧ NoDraw s t) ∧
      (∃ t, exec (.subn x y) s = .next t ∧ t.v[x] = s.v[y] - s.v[x] ∧
        t.v[VF] = (if (s.v[x]).toNat ≤ (s.v[y]).toNat then 1 else 0) ∧
        SameRegsBut [x, VF] s t ∧ SameBeyondRegs s t ∧ NoDraw s t)

/-- SHR and SHL shift `V[x]` in place by one, whatever `y` is, and put the bit shifted out in `VF` (R168, R170). A destination
`VF` is `VfAsDestinationAndFlagIsFree`. -/
def Obligations.ShiftsMoveOneBitIntoTheFlag : Prop :=
  ∀ x y : Reg, decode (wordXYN 0x8 x y 0x6) = .ok (.shr x y) ∧ decode (wordXYN 0x8 x y 0xE) = .ok (.shl x y) ∧
    ∀ s : State, x ≠ VF →
      (∃ t, exec (.shr x y) s = .next t ∧ t.v[x] = s.v[x] >>> 1 ∧ t.v[VF] = (if (s.v[x]).getLsbD 0 then 1 else 0) ∧
        SameRegsBut [x, VF] s t ∧ SameBeyondRegs s t ∧ NoDraw s t) ∧
      (∃ t, exec (.shl x y) s = .next t ∧ t.v[x] = s.v[x] <<< 1 ∧ t.v[VF] = (if (s.v[x]).getLsbD 7 then 1 else 0) ∧
        SameRegsBut [x, VF] s t ∧ SameBeyondRegs s t ∧ NoDraw s t)

/-- With `VF` as the destination the five flag-setting operations complete, leave in `VF` the next free value, whatever it is,
and write nothing else (R171; the spec's decision D11, log 9). -/
def Obligations.VfAsDestinationAndFlagIsFree : Prop :=
  ∀ (y : Reg) (s : State) (i : Instr), i ∈ [.addReg VF y, .sub VF y, .shr VF y, .subn VF y, .shl VF y] →
    ∃ t, exec i s = .next t ∧ t.v[VF] = Config.vfClash s.draws ∧ SameRegsBut [VF] s t ∧ SameBeyondRegs s t ∧
      t.draws = s.draws + 1

/-! Random (44_random.md). -/

/-- RND leaves in `V[x]` the next free byte under the mask and takes one draw (R190; the spec's decision D26, log 11). -/
def Obligations.RndMasksTheDrawnByte : Prop :=
  ∀ (x : Reg) (kk : Byte) (s : State),
    ∃ t, exec (.rnd x kk) s = .next t ∧ t.v[x] = Config.rnd s.draws &&& kk ∧ t.v[x] &&& ~~~kk = 0 ∧
      SameRegsBut [x] s t ∧ SameBeyondRegs s t ∧ t.draws = s.draws + 1

/-! Display (45_display.md). -/

/-- CLS unlights every cell and writes nothing else (R200). -/
def Obligations.ClsClearsEveryCell : Prop :=
  decode 0x00E0 = .ok .cls ∧ ∀ s : State,
    ∃ t, exec .cls s = .next t ∧ (∀ (c : Fin 64) (r : Fin 32), t.fb[c][r] = false) ∧ t.key = s.key ∧ t.v = s.v ∧
      t.i = s.i ∧ t.pc = s.pc ∧ SameStack s t ∧ SameTimers s t ∧ SameMemory s t ∧ SameHidden s t ∧ NoDraw s t

/-- DRW toggles exactly the pixels its sprite plots, per-pixel wrapped, with row `r` read at `I + r`, and leaves in `VF`
whether one of them was lit (R201 to R204). For `n = 0` that is the spec's derived reading (N16, log 32); where `x` or `y` is
`VF`, that the coordinates are read first is the spec's decision D12, log 21. -/
def Obligations.DrwTogglesThePlottedPixels : Prop :=
  ∀ (x y : Reg) (n : Fin 16), decode (wordXYN 0xD x y (toNibble n)) = .ok (.drw x y n) ∧ ∀ s : State,
    let plotted := Plots (s.v[x]).toNat (s.v[y]).toNat (fun r => s.memRead (s.i + BitVec.ofNat 16 r)) n.val
    ∃ t, exec (.drw x y n) s = .next t ∧
      (∀ (c : Fin 64) (r : Fin 32),
        (plotted c r → t.fb[c][r] = !s.fb[c][r]) ∧ (¬ plotted c r → t.fb[c][r] = s.fb[c][r])) ∧
      ((∃ c r, plotted c r ∧ s.fb[c][r] = true) → t.v[VF] = 1) ∧
      ((¬ ∃ c r, plotted c r ∧ s.fb[c][r] = true) → t.v[VF] = 0) ∧
      SameRegsBut [VF] s t ∧ t.key = s.key ∧ t.i = s.i ∧ t.pc = s.pc ∧ SameStack s t ∧ SameTimers s t ∧
      SameMemory s t ∧ SameHidden s t ∧ NoDraw s t

/-- A second DRW of the same sprite at the same place restores the framebuffer, and reports a collision exactly if a pixel it
plots was unlit before the first (R206's restoring, from R201, R203, R205). R206 says more of the flag, that a set bit in the
sprite is enough: on a framebuffer where every plotted pixel was lit R201 gives 0, and the model follows R201 (log 33). Between
the two, anything but the framebuffer, the coordinates, `I` and memory may have changed. -/
def Obligations.DrawingTwiceRestores : Prop :=
  ∀ (x y : Reg) (n : Fin 16) (s t u : State), exec (.drw x y n) s = .next t →
    u.fb = t.fb → u.v[x] = s.v[x] → u.v[y] = s.v[y] → u.i = s.i → SameMemory s u →
    let plotted := Plots (s.v[x]).toNat (s.v[y]).toNat (fun r => s.memRead (s.i + BitVec.ofNat 16 r)) n.val
    ∃ w, exec (.drw x y n) u = .next w ∧ w.fb = s.fb ∧
      ((∃ c r, plotted c r ∧ s.fb[c][r] = false) → w.v[VF] = 1) ∧
      ((¬ ∃ c r, plotted c r ∧ s.fb[c][r] = false) → w.v[VF] = 0)

/-! Timers, key wait, `I` and memory transfers (46_timer_memory.md). -/

/-- LD Vx, DT; LD DT, Vx; LD ST, Vx (R220, R222, R223). -/
def Obligations.TimerTransfersCopy : Prop :=
  ∀ x : Reg, decode (wordXKk 0xF x 0x07) = .ok (.ldVxDt x) ∧ decode (wordXKk 0xF x 0x15) = .ok (.ldDtVx x) ∧
    decode (wordXKk 0xF x 0x18) = .ok (.ldStVx x) ∧ ∀ s : State,
      (∃ t, exec (.ldVxDt x) s = .next t ∧ t.v[x] = s.dt ∧ SameRegsBut [x] s t ∧ SameBeyondRegs s t ∧ NoDraw s t) ∧
      (∃ t, exec (.ldDtVx x) s = .next t ∧ t.dt = s.v[x] ∧ t.st = s.st ∧ t.v = s.v ∧ t.i = s.i ∧ t.pc = s.pc ∧
        SameStack s t ∧ SameMemory s t ∧ SameScreenKeys s t ∧ SameHidden s t ∧ NoDraw s t) ∧
      (∃ t, exec (.ldStVx x) s = .next t ∧ t.st = s.v[x] ∧ t.dt = s.dt ∧ t.v = s.v ∧ t.i = s.i ∧ t.pc = s.pc ∧
        SameStack s t ∧ SameMemory s t ∧ SameScreenKeys s t ∧ SameHidden s t ∧ NoDraw s t)

/-- LD Vx, K starts a wait for `x` and writes no register (R221; that a key already held does not end it is the spec's
decision D16, log 15). -/
def Obligations.LdVxKStartsTheWait : Prop :=
  ∀ (x : Reg) (s : State),
    ∃ t, exec (.ldVxK x) s = .next t ∧ t.await = some x ∧ t.fault = s.fault ∧ t.v = s.v ∧ t.i = s.i ∧ t.pc = s.pc ∧
      SameStack s t ∧ SameTimers s t ∧ SameMemory s t ∧ SameScreenKeys s t ∧ NoDraw s t

/-- ADD I, Vx wraps mod 65536 and writes no flag (R224). -/
def Obligations.AddIWrapsWithoutFlag : Prop :=
  ∀ x : Reg, decode (wordXKk 0xF x 0x1E) = .ok (.addI x) ∧ ∀ s : State,
    ∃ t, exec (.addI x) s = .next t ∧ t.i.toNat = (s.i.toNat + (s.v[x]).toNat) % 65536 ∧ t.v = s.v ∧ t.pc = s.pc ∧
      SameStack s t ∧ SameTimers s t ∧ SameMemory s t ∧ SameScreenKeys s t ∧ SameHidden s t ∧ NoDraw s t

/-- LD I, nnn sets `I` (R229, read from its name: log 22); LD F, Vx sets `I` to five times `V[x]`, for `V[x]` over 15 too
(R225; the spec's decision D14, log 16). -/
def Obligations.LdIAndLdFSetI : Prop :=
  ∀ (x : Reg) (nnn : Addr12) (s : State),
    (∃ t, exec (.ldI nnn) s = .next t ∧ t.i.toNat = nnn.toNat ∧ t.v = s.v ∧ t.pc = s.pc ∧
      SameStack s t ∧ SameTimers s t ∧ SameMemory s t ∧ SameScreenKeys s t ∧ SameHidden s t ∧ NoDraw s t) ∧
    (∃ t, exec (.ldF x) s = .next t ∧ t.i.toNat = (s.v[x]).toNat * 5 ∧ t.v = s.v ∧ t.pc = s.pc ∧
      SameStack s t ∧ SameTimers s t ∧ SameMemory s t ∧ SameScreenKeys s t ∧ SameHidden s t ∧ NoDraw s t)

/-- LD B, Vx stores the three decimal digits at `I`, `I + 1`, `I + 2`, each address reduced, and nothing else (R226). -/
def Obligations.LdBStoresThreeDigits : Prop :=
  ∀ x : Reg, decode (wordXKk 0xF x 0x33) = .ok (.ldB x) ∧ ∀ s : State,
    ∃ t, exec (.ldB x) s = .next t ∧ (t.memRead s.i).toNat = (s.v[x]).toNat / 100 ∧
      (t.memRead (s.i + 1)).toNat = (s.v[x]).toNat / 10 % 10 ∧ (t.memRead (s.i + 2)).toNat = (s.v[x]).toNat % 10 ∧
      SameMemoryBut s.i 3 s t ∧ t.v = s.v ∧ t.i = s.i ∧ t.pc = s.pc ∧ SameStack s t ∧ SameTimers s t ∧
      SameScreenKeys s t ∧ SameHidden s t ∧ NoDraw s t

/-- LD [I], Vx stores `V[0]` to `V[x]` at `I` on, each address reduced, and nothing else; `I` is kept (R227; that it is kept is
the spec's decision D15, log 17). -/
def Obligations.StoreRegistersFillsMemory : Prop :=
  ∀ (x : Reg) (s : State),
    ∃ t, exec (.stRegs x) s = .next t ∧ (∀ r : Reg, r ≤ x → t.memRead (s.i + BitVec.ofNat 16 r.val) = s.v[r]) ∧
      SameMemoryBut s.i (x.val + 1) s t ∧ t.v = s.v ∧ t.i = s.i ∧ t.pc = s.pc ∧ SameStack s t ∧ SameTimers s t ∧
      SameScreenKeys s t ∧ SameHidden s t ∧ NoDraw s t

/-- LD Vx, [I] loads `V[0]` to `V[x]` from `I` on and leaves the registers above `x`; `I` is kept (R228; that it is kept is the
spec's decision D15, log 17). -/
def Obligations.LoadRegistersReadsMemory : Prop :=
  ∀ (x : Reg) (s : State),
    ∃ t, exec (.ldRegs x) s = .next t ∧ (∀ r : Reg, r ≤ x → t.v[r] = s.memRead (s.i + BitVec.ofNat 16 r.val)) ∧
      (∀ r : Reg, x < r → t.v[r] = s.v[r]) ∧ SameBeyondRegs s t ∧ NoDraw s t

/-- Registers stored by LD [I], Vx are loaded back by LD Vx, [I] at the same `I` into any register file
(95_test_vectors.md L1-9). -/
def Obligations.StoredRegistersLoadBack : Prop :=
  ∀ (x : Reg) (s t u : State), exec (.stRegs x) s = .next t → u.i = s.i → SameMemory t u →
    ∃ w, exec (.ldRegs x) u = .next w ∧ ∀ r : Reg, r ≤ x → w.v[r] = s.v[r]

/-! Memory (20_memory.md). -/

/-- A byte reads as what was last stored in its cell, addresses being reduced mod 4096; a store changes no other cell (R51, R57,
R59). -/
def Obligations.MemoryReadsTheLastStore : Prop :=
  ∀ (s : State) (a b : Word) (v : Byte),
    (s.memWrite a v).memRead b = if a.toNat % 4096 = b.toNat % 4096 then v else s.memRead b

/-! The host's operations (60_exceptions.md, 70_reset_and_hazards.md). -/

/-- TICK takes 1 from each nonzero timer and changes nothing else, in every condition of the core (R261). -/
def Obligations.TickDecrementsTheTimers : Prop :=
  ∀ (font : Font) (s : State), ∃ t, hostOp font .tick s = .next (t, .done) ∧ t.dt.toNat = s.dt.toNat - 1 ∧ t.st.toNat = s.st.toNat - 1 ∧
    t.v = s.v ∧ t.i = s.i ∧ t.pc = s.pc ∧ SameStack s t ∧ SameMemory s t ∧ SameScreenKeys s t ∧ SameHidden s t ∧
    NoDraw s t

/-- After `n` TICKs each timer is `n` less, or 0 (10_state.md R30, R31; 95_test_vectors.md L1-8). -/
def Obligations.TicksReachZeroAndStay : Prop :=
  ∀ (font : Font) (n : Nat) (s : State), ∃ t, hostRun font (List.replicate n .tick) s = .next t ∧ t.dt.toNat = s.dt.toNat - n ∧
    t.st.toNat = s.st.toNat - n ∧ t.v = s.v ∧ t.pc = s.pc

/-- SET_KEY drives its key; a press of a released key ends a wait and writes the key number to the waiting register; nothing
else ends it (R266, R267; the spec's decisions D16 and D18, log 15, log 24). -/
def Obligations.SetKeyDrivesTheKeyAndEndsTheWait : Prop :=
  ∀ (font : Font) (s : State) (k : Fin 16) (b : Bool), ∃ t, hostOp font (.setKey k b) s = .next (t, .done) ∧ t.key[k] = b ∧
    (∀ j : Fin 16, j ≠ k → t.key[j] = s.key[j]) ∧
    (∀ x : Reg, s.await = some x → b = true → s.key[k] = false →
      (t.v[x]).toNat = k.val ∧ t.await = none ∧ SameRegsBut [x] s t) ∧
    ((s.await = none ∨ b = false ∨ s.key[k] = true) → t.v = s.v ∧ t.await = s.await) ∧
    t.fault = s.fault ∧ t.fb = s.fb ∧ t.i = s.i ∧ t.pc = s.pc ∧ SameStack s t ∧ SameTimers s t ∧ SameMemory s t ∧
    NoDraw s t

/-- LOAD copies byte `i` of an image to 0x200 + i and writes only memory; an image over 0xE00 bytes is refused (R271; the spec's
decision D19, log 19). -/
def Obligations.LoadCopiesTheImage : Prop :=
  ∀ (font : Font) (image : List Byte) (s : State),
    (image.length ≤ 0xE00 →
      ∃ t, hostOp font (.load image) s = .next (t, .done) ∧
        (∀ (j : Nat) (h : j < image.length), t.memRead (0x200 + BitVec.ofNat 16 j) = image[j]) ∧
        (∀ a : Word, a.toNat % 4096 < 0x200 ∨ 0x200 + image.length ≤ a.toNat % 4096 → t.memRead a = s.memRead a) ∧
        t.v = s.v ∧ t.i = s.i ∧ t.pc = s.pc ∧ SameStack s t ∧ SameTimers s t ∧ SameScreenKeys s t ∧ SameHidden s t ∧
        NoDraw s t) ∧
    (0xE00 < image.length → hostOp font (.load image) s = .refused (.loadTooLong image.length))

/-- RESET, from any state and for any `FONT` (00_scope.md R7), leaves every element at its reset value (R290; 10_state.md R41):
the font (its place is log 4) and zeros in memory, `PC` at 0x200 (the spec's decision D2, log 2), the keys released (D20,
log 18). With the default font (log 3) that is `State.reset`, the model's own count of draws apart. -/
def Obligations.ResetLeavesTheResetValues : Prop :=
  (∀ (font : Font) (s : State), ∃ t, hostOp font .reset s = .next (t, .done) ∧ (∀ r : Reg, t.v[r] = 0) ∧ t.i = 0 ∧
    t.pc = 0x0200 ∧ t.sp = 0 ∧ (∀ j : Fin 16, t.stack[j] = 0) ∧ t.dt = 0 ∧ t.st = 0 ∧
    (∀ (c : Fin 64) (r : Fin 32), t.fb[c][r] = false) ∧ (∀ k : Fin 16, t.key[k] = false) ∧
    t.await = none ∧ t.fault = none ∧ (∀ j : Fin 80, t.memRead (BitVec.ofNat 16 j.val) = font[j]) ∧
    (∀ a : Word, 80 ≤ a.toNat → a.toNat < 4096 → t.memRead a = 0)) ∧
  (∀ s : State, hostOp Config.font .reset s = .next ({ State.reset with draws := s.draws }, .done))

/-- `read` replies with the state and changes nothing (R268). -/
def Obligations.ReadChangesNothing : Prop :=
  ∀ (font : Font) (s : State), hostOp font .read s = .next (s, .view s)

/-- The reply of a STEP that fetches (40_step_cycle.md R105): `Ok` if an instruction executes, `Err` with the record if STEP
raises a fault, in the state with that record and `PC` advanced. What the records hold is the spec's decisions D8 and D9, log 8;
the replies of a faulted and of a waiting core are `FaultedAndWaitingStepsChangeNothing`. -/
def Obligations.StepRepliesOkOrTheFault : Prop :=
  ∀ (font : Font) (s : State), s.Running → s.SpLegal →
    (∀ i, decode (s.memRead s.pc ++ s.memRead (s.pc + 1)) = .ok i → ((∀ nnn, i ≠ .call nnn) ∨ s.sp.toNat < 16) →
      ∃ t, exec i { s with pc := s.pc + 2 } = .next t ∧ t.fault = none ∧ hostOp font .step s = .next (t, .ok)) ∧
    (∀ nnn, decode (s.memRead s.pc ++ s.memRead (s.pc + 1)) = .ok (.call nnn) → s.sp.toNat = 16 →
      hostOp font .step s =
        .next ({ s with pc := s.pc + 2, fault := some (.stackOverflow s.pc) }, .err (.stackOverflow s.pc))) ∧
    (∀ e, decode (s.memRead s.pc ++ s.memRead (s.pc + 1)) = .error e →
      let f := EngineFault.decodeError (s.memRead s.pc ++ s.memRead (s.pc + 1)) s.pc
      hostOp font .step s = .next ({ s with pc := s.pc + 2, fault := some f }, .err f))

/-! The whole machine. -/

/-- The invariant holds right after RESET, with the default font and with any. -/
def Obligations.ResetMeetsTheInvariant : Prop := State.reset.Inv ∧ ∀ font : Font, (State.resetWith font).Inv

/-- Every STEP keeps the invariant: memory in canonical form, `SP` at most 16 (10_state.md R28), `FAULT` and `AWAIT` never both
set (60_exceptions.md R256), the fault record true (R251, R253, R255). -/
def Obligations.StepKeepsTheInvariant : Prop :=
  ∀ s t : State, s.Inv → step s = .next t → t.Inv

/-- Every schedule of host operations keeps the invariant (60_exceptions.md R265). -/
def Obligations.EveryScheduleKeepsTheInvariant : Prop :=
  ∀ (font : Font) (ops : List HostOp) (s t : State), s.Inv → hostRun font ops s = .next t → t.Inv

/-- A core that meets the invariant never gets stuck: STEP answers a next state, unless the core is already faulted, when it
reports that fault (40_step_cycle.md R103, 60_exceptions.md R254). That the report is the outcome `fault` is the model's choice,
log 7. -/
def Obligations.StepAnswersUnlessAlreadyFaulted : Prop :=
  ∀ s : State, s.Inv →
    (s.fault = none → ∃ t, step s = .next t) ∧ (∀ f, s.fault = some f → step s = .fault (.engine f))

/-- Every instruction completes wherever `SP` is legal (40_step_cycle.md R103). -/
def Obligations.EveryInstructionCompletes : Prop :=
  ∀ (i : Instr) (s : State), s.SpLegal → ∃ t, exec i s = .next t

/-- No instruction writes a general register but its destination and, where it has a flag, `VF` (10_state.md R22, R23). -/
def Obligations.InstructionsWriteOnlyTheirRegisters : Prop :=
  ∀ (i : Instr) (s t : State), exec i s = .next t → SameRegsBut (regsWritten i) s t

/-- Each special register has only the writers the spec names: `I` LD I, ADD I and LD F (10_state.md R25); `SP` and `STACK` CALL
and RET (R28, R29); `DT` LD DT (R30) and `ST` LD ST (R31); `AWAIT` LD Vx, K (R35). -/
def Obligations.SpecialRegistersHaveOnlyTheirWriters : Prop :=
  ∀ (i : Instr) (s t : State), exec i s = .next t →
    ((∀ nnn, i ≠ .ldI nnn) → (∀ x, i ≠ .addI x) → (∀ x, i ≠ .ldF x) → t.i = s.i) ∧
    ((∀ nnn, i ≠ .call nnn) → i ≠ .ret → t.sp = s.sp) ∧ ((∀ nnn, i ≠ .call nnn) → t.stack = s.stack) ∧
    ((∀ x, i ≠ .ldDtVx x) → t.dt = s.dt) ∧ ((∀ x, i ≠ .ldStVx x) → t.st = s.st) ∧
    ((∀ x, i ≠ .ldVxK x) → t.await = s.await)

/-- Memory is written only by LD B and LD [I] (20_memory.md R50), the framebuffer only by CLS and DRW (10_state.md R32), the keys
by no instruction (R34). -/
def Obligations.MemoryAndDevicesHaveOnlyTheirWriters : Prop :=
  ∀ (i : Instr) (s t : State), exec i s = .next t →
    ((∀ x, i ≠ .ldB x) → (∀ x, i ≠ .stRegs x) → t.mem = s.mem) ∧
    (i ≠ .cls → (∀ x y n, i ≠ .drw x y n) → t.fb = s.fb) ∧ t.key = s.key

/-- The only engine fault an instruction raises is CALL's, with a full stack (40_step_cycle.md R103, 60_exceptions.md R254). -/
def Obligations.OnlyCallRaisesAFault : Prop :=
  ∀ (i : Instr) (s t : State), exec i s = .next t → t.fault ≠ s.fault →
    ∃ nnn, i = .call nnn ∧ 16 ≤ s.sp.toNat ∧ t.fault = some (.stackOverflow (s.pc - 2))

/-- Once faulted, a core that meets the invariant keeps its fault, and no host operation but RESET changes a register, `I`, `PC`,
the stack or the framebuffer (60_exceptions.md R252, R258; the spec's decision D10, log 7). -/
def Obligations.FaultLastsUntilReset : Prop :=
  ∀ (font : Font) (ops : List HostOp) (s t : State) (f : EngineFault), s.Inv → s.fault = some f → HostOp.reset ∉ ops →
    hostRun font ops s = .next t →
    t.fault = some f ∧ t.v = s.v ∧ t.i = s.i ∧ t.pc = s.pc ∧ SameStack s t ∧ t.fb = s.fb ∧ NoDraw s t

/-- A waiting core waits, its registers, `I`, `PC`, stack and framebuffer unchanged, through every schedule with no RESET and no
press of a key (60_exceptions.md R274; the spec's decisions D16 and D17, log 14, log 15). -/
def Obligations.WaitLastsUntilAPress : Prop :=
  ∀ (font : Font) (ops : List HostOp) (s t : State) (x : Reg), s.fault = none → s.await = some x → HostOp.reset ∉ ops →
    (∀ k, HostOp.setKey k true ∉ ops) → hostRun font ops s = .next t →
    t.await = some x ∧ t.fault = none ∧ t.v = s.v ∧ t.i = s.i ∧ t.pc = s.pc ∧ SameStack s t ∧ t.fb = s.fb ∧ NoDraw s t

/-! The flag of a second draw (45_display.md R206). -/

/-- R206's sentence on the flag, wherever R201 and R203 bear it out for a sprite that has a set bit: if the first DRW reported no
collision, the second one reports one. Where the first reported one, `DrawingTwiceRestores` says when the second does (log 33).
Between the two, anything but the framebuffer, the coordinates, `I` and memory may have changed. -/
def Obligations.SecondDrawReportsAfterAFirstWithout : Prop :=
  ∀ (x y : Reg) (n : Fin 16) (s t u : State), exec (.drw x y n) s = .next t → t.v[VF] = 0 →
    u.fb = t.fb → u.v[x] = s.v[x] → u.v[y] = s.v[y] → u.i = s.i → SameMemory s u →
    (∃ r < n.val, s.memRead (s.i + BitVec.ofNat 16 r) ≠ 0) →
    ∃ w, exec (.drw x y n) u = .next w ∧ w.fb = s.fb ∧ w.v[VF] = 1
end

