-- ==== Sys2Proof/Laws/Decode.lean ====
section
/-! SUPPORT. Lemmas about words as concatenated fields (spec 30_encoding.md R70, R71) and about the rows that accept them. -/

namespace Sys2Proof

/-- A word is its class nibble before its low 12 bits. -/
theorem word_split (w : Word) : w = (w.extractLsb' 12 4 ++ w.extractLsb' 0 12 : Word) := by
  rw [BitVec.extractLsb'_append_extractLsb'_eq_extractLsb' (by omega)]; simp

theorem addr_split (a : Addr12) : a = (a.extractLsb' 8 4 ++ a.extractLsb' 0 8 : Addr12) := by
  rw [BitVec.extractLsb'_append_extractLsb'_eq_extractLsb' (by omega)]; simp

theorem byte_split (b : Byte) : b = (b.extractLsb' 4 4 ++ b.extractLsb' 0 4 : Byte) := by
  rw [BitVec.extractLsb'_append_extractLsb'_eq_extractLsb' (by omega)]; simp

theorem word_append_inj (c p : BitVec 4) (a q : Addr12) : ((c ++ a : Word) = p ++ q) ↔ c = p ∧ a = q := by
  constructor
  · intro h
    have h1 : (c ++ a : Word).extractLsb' 12 4 = (p ++ q : Word).extractLsb' 12 4 := by rw [h]
    have h2 : (c ++ a : Word).extractLsb' 0 12 = (p ++ q : Word).extractLsb' 0 12 := by rw [h]
    exact ⟨BitVec.extractLsb'_append_eq_left.symm.trans (h1.trans BitVec.extractLsb'_append_eq_left),
      BitVec.extractLsb'_append_eq_right.symm.trans (h2.trans BitVec.extractLsb'_append_eq_right)⟩
  · rintro ⟨rfl, rfl⟩; rfl

@[simp] theorem ofNibble_toNibble (x : Fin 16) : ofNibble (toNibble x) = x := rfl
@[simp] theorem toNibble_ofNibble (b : BitVec 4) : toNibble (ofNibble b) = b := rfl

/-- A row accepts a word exactly if it accepts its class nibble and its low 12 bits. -/
theorem accepts_append (c : BitVec 4) (a : Addr12) (mask pat : Word) :
    ((c ++ a : Word) &&& mask == pat) =
      ((c &&& mask.extractLsb' 12 4 == pat.extractLsb' 12 4) &&
        (a &&& mask.extractLsb' 0 12 == pat.extractLsb' 0 12)) := by
  have hand : ((c ++ a : Word) &&& (mask.extractLsb' 12 4 ++ mask.extractLsb' 0 12 : Word)) =
      (c &&& mask.extractLsb' 12 4) ++ (a &&& mask.extractLsb' 0 12) := BitVec.and_append
  conv => lhs; rw [word_split mask, word_split pat]
  rw [Bool.eq_iff_iff, beq_iff_eq, hand, word_append_inj]
  simp

/-- `accepts_append` for each word format: a row accepts a word exactly if it accepts each of its fields. -/
theorem accepts_wordNnn (c : BitVec 4) (nnn : Addr12) (mask pat : Word) :
    (wordNnn c nnn &&& mask == pat) =
      ((c &&& mask.extractLsb' 12 4 == pat.extractLsb' 12 4) &&
        (nnn &&& mask.extractLsb' 0 12 == pat.extractLsb' 0 12)) := accepts_append c nnn mask pat

theorem addr_append_inj (c p : BitVec 4) (a q : Byte) : ((c ++ a : Addr12) = p ++ q) ↔ c = p ∧ a = q := by
  constructor
  · intro h
    have h1 : (c ++ a : Addr12).extractLsb' 8 4 = (p ++ q : Addr12).extractLsb' 8 4 := by rw [h]
    have h2 : (c ++ a : Addr12).extractLsb' 0 8 = (p ++ q : Addr12).extractLsb' 0 8 := by rw [h]
    exact ⟨BitVec.extractLsb'_append_eq_left.symm.trans (h1.trans BitVec.extractLsb'_append_eq_left),
      BitVec.extractLsb'_append_eq_right.symm.trans (h2.trans BitVec.extractLsb'_append_eq_right)⟩
  · rintro ⟨rfl, rfl⟩; rfl

theorem accepts_addr (b : BitVec 4) (kk : Byte) (mask pat : Addr12) :
    ((b ++ kk : Addr12) &&& mask == pat) =
      ((b &&& mask.extractLsb' 8 4 == pat.extractLsb' 8 4) && (kk &&& mask.extractLsb' 0 8 == pat.extractLsb' 0 8)) := by
  have hand : ((b ++ kk : Addr12) &&& (mask.extractLsb' 8 4 ++ mask.extractLsb' 0 8 : Addr12)) =
      (b &&& mask.extractLsb' 8 4) ++ (kk &&& mask.extractLsb' 0 8) := BitVec.and_append
  conv => lhs; rw [addr_split mask, addr_split pat]
  rw [Bool.eq_iff_iff, beq_iff_eq, hand, addr_append_inj]
  simp

theorem accepts_wordXKk (c : BitVec 4) (x : Reg) (kk : Byte) (mask pat : Word) :
    (wordXKk c x kk &&& mask == pat) =
      ((c &&& mask.extractLsb' 12 4 == pat.extractLsb' 12 4) &&
        ((toNibble x &&& (mask.extractLsb' 0 12).extractLsb' 8 4 == (pat.extractLsb' 0 12).extractLsb' 8 4) &&
          (kk &&& (mask.extractLsb' 0 12).extractLsb' 0 8 == (pat.extractLsb' 0 12).extractLsb' 0 8))) := by
  rw [← accepts_addr]; exact accepts_append c _ mask pat

theorem byte_append_inj (c p a q : BitVec 4) : ((c ++ a : Byte) = p ++ q) ↔ c = p ∧ a = q := by
  constructor
  · intro h
    have h1 : (c ++ a : Byte).extractLsb' 4 4 = (p ++ q : Byte).extractLsb' 4 4 := by rw [h]
    have h2 : (c ++ a : Byte).extractLsb' 0 4 = (p ++ q : Byte).extractLsb' 0 4 := by rw [h]
    exact ⟨BitVec.extractLsb'_append_eq_left.symm.trans (h1.trans BitVec.extractLsb'_append_eq_left),
      BitVec.extractLsb'_append_eq_right.symm.trans (h2.trans BitVec.extractLsb'_append_eq_right)⟩
  · rintro ⟨rfl, rfl⟩; rfl

theorem accepts_byte (b n : BitVec 4) (mask pat : Byte) :
    ((b ++ n : Byte) &&& mask == pat) =
      ((b &&& mask.extractLsb' 4 4 == pat.extractLsb' 4 4) && (n &&& mask.extractLsb' 0 4 == pat.extractLsb' 0 4)) := by
  have hand : ((b ++ n : Byte) &&& (mask.extractLsb' 4 4 ++ mask.extractLsb' 0 4 : Byte)) =
      (b &&& mask.extractLsb' 4 4) ++ (n &&& mask.extractLsb' 0 4) := BitVec.and_append
  conv => lhs; rw [byte_split mask, byte_split pat]
  rw [Bool.eq_iff_iff, beq_iff_eq, hand, byte_append_inj]
  simp

theorem accepts_wordXYN (c : BitVec 4) (x y : Reg) (n : BitVec 4) (mask pat : Word) :
    (wordXYN c x y n &&& mask == pat) =
      ((c &&& mask.extractLsb' 12 4 == pat.extractLsb' 12 4) &&
        ((toNibble x &&& (mask.extractLsb' 0 12).extractLsb' 8 4 == (pat.extractLsb' 0 12).extractLsb' 8 4) &&
          ((toNibble y &&& ((mask.extractLsb' 0 12).extractLsb' 0 8).extractLsb' 4 4 ==
              ((pat.extractLsb' 0 12).extractLsb' 0 8).extractLsb' 4 4) &&
            (n &&& ((mask.extractLsb' 0 12).extractLsb' 0 8).extractLsb' 0 4 ==
              ((pat.extractLsb' 0 12).extractLsb' 0 8).extractLsb' 0 4)))) := by
  rw [← accepts_byte]; exact accepts_wordXKk c x (toNibble y ++ n) mask pat

theorem and_fullNibble (c : BitVec 4) : c &&& 15#4 = c := BitVec.and_allOnes
theorem and_fullByte (b : Byte) : b &&& 255#8 = b := BitVec.and_allOnes
theorem and_fullAddr (a : Addr12) : a &&& 4095#12 = a := BitVec.and_allOnes

@[simp] theorem fieldNnn_word (c : BitVec 4) (nnn : Addr12) : fieldNnn (wordNnn c nnn) = nnn :=
  BitVec.extractLsb'_append_eq_right

@[simp] theorem fieldKk_word (c : BitVec 4) (x : Reg) (kk : Byte) : fieldKk (wordXKk c x kk) = kk := by
  unfold fieldKk wordXKk
  rw [BitVec.extractLsb'_append_eq_of_add_le (by omega), BitVec.extractLsb'_append_eq_right]

@[simp] theorem fieldX_word (c : BitVec 4) (x : Reg) (kk : Byte) : fieldX (wordXKk c x kk) = x := by
  unfold fieldX wordXKk
  rw [BitVec.extractLsb'_append_eq_of_add_le (by omega), BitVec.extractLsb'_append_eq_left, ofNibble_toNibble]

@[simp] theorem fieldX_wordXYN (c : BitVec 4) (x y : Reg) (n : BitVec 4) : fieldX (wordXYN c x y n) = x :=
  fieldX_word c x (toNibble y ++ n)

@[simp] theorem fieldY_word (c : BitVec 4) (x y : Reg) (n : BitVec 4) : fieldY (wordXYN c x y n) = y := by
  unfold fieldY wordXYN
  rw [BitVec.extractLsb'_append_eq_of_add_le (by omega), BitVec.extractLsb'_append_eq_of_add_le (by omega),
    BitVec.extractLsb'_append_eq_left, ofNibble_toNibble]

@[simp] theorem fieldN_word (c : BitVec 4) (x y : Reg) (n : BitVec 4) : fieldN (wordXYN c x y n) = ofNibble n := by
  unfold fieldN wordXYN
  rw [BitVec.extractLsb'_append_eq_of_add_le (by omega), BitVec.extractLsb'_append_eq_of_add_le (by omega),
    BitVec.extractLsb'_append_eq_right]

/-- Every word has each of the three formats. -/
theorem word_eq_wordNnn (w : Word) : w = wordNnn (w.extractLsb' 12 4) (fieldNnn w) := word_split w

theorem addr_eq_append (a : Addr12) : ∃ (x : Reg) (kk : Byte), a = toNibble x ++ kk :=
  ⟨ofNibble (a.extractLsb' 8 4), a.extractLsb' 0 8, addr_split a⟩

theorem byte_eq_append (b : Byte) : ∃ (y : Reg) (n : BitVec 4), b = toNibble y ++ n :=
  ⟨ofNibble (b.extractLsb' 4 4), b.extractLsb' 0 4, byte_split b⟩

theorem wordXKk_eq_wordNnn (c : BitVec 4) (x : Reg) (kk : Byte) : wordXKk c x kk = wordNnn c (toNibble x ++ kk) := rfl

theorem wordXYN_eq_wordXKk (c : BitVec 4) (x y : Reg) (n : BitVec 4) :
    wordXYN c x y n = wordXKk c x (toNibble y ++ n) := rfl

/-- The two bytes of a word, in memory order, make the word again (20_memory.md R52). -/
theorem hiByte_append_loByte (w : Word) : (hiByte w ++ loByte w : Word) = w := by
  unfold hiByte loByte
  rw [BitVec.extractLsb'_append_extractLsb'_eq_extractLsb' (by omega)]; simp

/-- Decoding the two bytes of a word decodes the word and leaves nothing. -/
theorem decodeBytes_wordBytes (w : Word) (i : Instr) (h : decode w = .ok i) :
    decodeBytes (wordBytes w) = .ok (i, []) := by
  simp only [decodeBytes, wordBytes, hiByte_append_loByte, h]

end Sys2Proof
end

