-- ==== Sys2Proof/Laws/State.lean ====
section
/-! SUPPORT. One lemma per field per update of the state, all true by unfolding the update once. -/

namespace Sys2Proof.Machine

variable (s : State)

@[simp] theorem State.setReg_v (x : Reg) (b : Byte) : (s.setReg x b).v = s.v.set x b := rfl
@[simp] theorem State.setReg_i (x : Reg) (b : Byte) : (s.setReg x b).i = s.i := rfl
@[simp] theorem State.setReg_pc (x : Reg) (b : Byte) : (s.setReg x b).pc = s.pc := rfl
@[simp] theorem State.setReg_sp (x : Reg) (b : Byte) : (s.setReg x b).sp = s.sp := rfl
@[simp] theorem State.setReg_stack (x : Reg) (b : Byte) : (s.setReg x b).stack = s.stack := rfl
@[simp] theorem State.setReg_dt (x : Reg) (b : Byte) : (s.setReg x b).dt = s.dt := rfl
@[simp] theorem State.setReg_st (x : Reg) (b : Byte) : (s.setReg x b).st = s.st := rfl
@[simp] theorem State.setReg_mem (x : Reg) (b : Byte) : (s.setReg x b).mem = s.mem := rfl
@[simp] theorem State.setReg_fb (x : Reg) (b : Byte) : (s.setReg x b).fb = s.fb := rfl
@[simp] theorem State.setReg_key (x : Reg) (b : Byte) : (s.setReg x b).key = s.key := rfl
@[simp] theorem State.setReg_await (x : Reg) (b : Byte) : (s.setReg x b).await = s.await := rfl
@[simp] theorem State.setReg_fault (x : Reg) (b : Byte) : (s.setReg x b).fault = s.fault := rfl
@[simp] theorem State.setReg_draws (x : Reg) (b : Byte) : (s.setReg x b).draws = s.draws := rfl

@[simp] theorem State.setRegs_v (w : Vector Byte 16) : (s.setRegs w).v = w := rfl
@[simp] theorem State.setRegs_i (w : Vector Byte 16) : (s.setRegs w).i = s.i := rfl
@[simp] theorem State.setRegs_pc (w : Vector Byte 16) : (s.setRegs w).pc = s.pc := rfl
@[simp] theorem State.setRegs_sp (w : Vector Byte 16) : (s.setRegs w).sp = s.sp := rfl
@[simp] theorem State.setRegs_stack (w : Vector Byte 16) : (s.setRegs w).stack = s.stack := rfl
@[simp] theorem State.setRegs_dt (w : Vector Byte 16) : (s.setRegs w).dt = s.dt := rfl
@[simp] theorem State.setRegs_st (w : Vector Byte 16) : (s.setRegs w).st = s.st := rfl
@[simp] theorem State.setRegs_mem (w : Vector Byte 16) : (s.setRegs w).mem = s.mem := rfl
@[simp] theorem State.setRegs_fb (w : Vector Byte 16) : (s.setRegs w).fb = s.fb := rfl
@[simp] theorem State.setRegs_key (w : Vector Byte 16) : (s.setRegs w).key = s.key := rfl
@[simp] theorem State.setRegs_await (w : Vector Byte 16) : (s.setRegs w).await = s.await := rfl
@[simp] theorem State.setRegs_fault (w : Vector Byte 16) : (s.setRegs w).fault = s.fault := rfl
@[simp] theorem State.setRegs_draws (w : Vector Byte 16) : (s.setRegs w).draws = s.draws := rfl

@[simp] theorem State.setI_v (w : Word) : (s.setI w).v = s.v := rfl
@[simp] theorem State.setI_i (w : Word) : (s.setI w).i = w := rfl
@[simp] theorem State.setI_pc (w : Word) : (s.setI w).pc = s.pc := rfl
@[simp] theorem State.setI_sp (w : Word) : (s.setI w).sp = s.sp := rfl
@[simp] theorem State.setI_stack (w : Word) : (s.setI w).stack = s.stack := rfl
@[simp] theorem State.setI_dt (w : Word) : (s.setI w).dt = s.dt := rfl
@[simp] theorem State.setI_st (w : Word) : (s.setI w).st = s.st := rfl
@[simp] theorem State.setI_mem (w : Word) : (s.setI w).mem = s.mem := rfl
@[simp] theorem State.setI_fb (w : Word) : (s.setI w).fb = s.fb := rfl
@[simp] theorem State.setI_key (w : Word) : (s.setI w).key = s.key := rfl
@[simp] theorem State.setI_await (w : Word) : (s.setI w).await = s.await := rfl
@[simp] theorem State.setI_fault (w : Word) : (s.setI w).fault = s.fault := rfl
@[simp] theorem State.setI_draws (w : Word) : (s.setI w).draws = s.draws := rfl

@[simp] theorem State.setPc_v (w : Word) : (s.setPc w).v = s.v := rfl
@[simp] theorem State.setPc_i (w : Word) : (s.setPc w).i = s.i := rfl
@[simp] theorem State.setPc_pc (w : Word) : (s.setPc w).pc = w := rfl
@[simp] theorem State.setPc_sp (w : Word) : (s.setPc w).sp = s.sp := rfl
@[simp] theorem State.setPc_stack (w : Word) : (s.setPc w).stack = s.stack := rfl
@[simp] theorem State.setPc_dt (w : Word) : (s.setPc w).dt = s.dt := rfl
@[simp] theorem State.setPc_st (w : Word) : (s.setPc w).st = s.st := rfl
@[simp] theorem State.setPc_mem (w : Word) : (s.setPc w).mem = s.mem := rfl
@[simp] theorem State.setPc_fb (w : Word) : (s.setPc w).fb = s.fb := rfl
@[simp] theorem State.setPc_key (w : Word) : (s.setPc w).key = s.key := rfl
@[simp] theorem State.setPc_await (w : Word) : (s.setPc w).await = s.await := rfl
@[simp] theorem State.setPc_fault (w : Word) : (s.setPc w).fault = s.fault := rfl
@[simp] theorem State.setPc_draws (w : Word) : (s.setPc w).draws = s.draws := rfl

@[simp] theorem State.setSp_v (b : Byte) : (s.setSp b).v = s.v := rfl
@[simp] theorem State.setSp_i (b : Byte) : (s.setSp b).i = s.i := rfl
@[simp] theorem State.setSp_pc (b : Byte) : (s.setSp b).pc = s.pc := rfl
@[simp] theorem State.setSp_sp (b : Byte) : (s.setSp b).sp = b := rfl
@[simp] theorem State.setSp_stack (b : Byte) : (s.setSp b).stack = s.stack := rfl
@[simp] theorem State.setSp_dt (b : Byte) : (s.setSp b).dt = s.dt := rfl
@[simp] theorem State.setSp_st (b : Byte) : (s.setSp b).st = s.st := rfl
@[simp] theorem State.setSp_mem (b : Byte) : (s.setSp b).mem = s.mem := rfl
@[simp] theorem State.setSp_fb (b : Byte) : (s.setSp b).fb = s.fb := rfl
@[simp] theorem State.setSp_key (b : Byte) : (s.setSp b).key = s.key := rfl
@[simp] theorem State.setSp_await (b : Byte) : (s.setSp b).await = s.await := rfl
@[simp] theorem State.setSp_fault (b : Byte) : (s.setSp b).fault = s.fault := rfl
@[simp] theorem State.setSp_draws (b : Byte) : (s.setSp b).draws = s.draws := rfl

@[simp] theorem State.setStack_v (k : Vector Word 16) : (s.setStack k).v = s.v := rfl
@[simp] theorem State.setStack_i (k : Vector Word 16) : (s.setStack k).i = s.i := rfl
@[simp] theorem State.setStack_pc (k : Vector Word 16) : (s.setStack k).pc = s.pc := rfl
@[simp] theorem State.setStack_sp (k : Vector Word 16) : (s.setStack k).sp = s.sp := rfl
@[simp] theorem State.setStack_stack (k : Vector Word 16) : (s.setStack k).stack = k := rfl
@[simp] theorem State.setStack_dt (k : Vector Word 16) : (s.setStack k).dt = s.dt := rfl
@[simp] theorem State.setStack_st (k : Vector Word 16) : (s.setStack k).st = s.st := rfl
@[simp] theorem State.setStack_mem (k : Vector Word 16) : (s.setStack k).mem = s.mem := rfl
@[simp] theorem State.setStack_fb (k : Vector Word 16) : (s.setStack k).fb = s.fb := rfl
@[simp] theorem State.setStack_key (k : Vector Word 16) : (s.setStack k).key = s.key := rfl
@[simp] theorem State.setStack_await (k : Vector Word 16) : (s.setStack k).await = s.await := rfl
@[simp] theorem State.setStack_fault (k : Vector Word 16) : (s.setStack k).fault = s.fault := rfl
@[simp] theorem State.setStack_draws (k : Vector Word 16) : (s.setStack k).draws = s.draws := rfl

@[simp] theorem State.setDt_v (b : Byte) : (s.setDt b).v = s.v := rfl
@[simp] theorem State.setDt_i (b : Byte) : (s.setDt b).i = s.i := rfl
@[simp] theorem State.setDt_pc (b : Byte) : (s.setDt b).pc = s.pc := rfl
@[simp] theorem State.setDt_sp (b : Byte) : (s.setDt b).sp = s.sp := rfl
@[simp] theorem State.setDt_stack (b : Byte) : (s.setDt b).stack = s.stack := rfl
@[simp] theorem State.setDt_dt (b : Byte) : (s.setDt b).dt = b := rfl
@[simp] theorem State.setDt_st (b : Byte) : (s.setDt b).st = s.st := rfl
@[simp] theorem State.setDt_mem (b : Byte) : (s.setDt b).mem = s.mem := rfl
@[simp] theorem State.setDt_fb (b : Byte) : (s.setDt b).fb = s.fb := rfl
@[simp] theorem State.setDt_key (b : Byte) : (s.setDt b).key = s.key := rfl
@[simp] theorem State.setDt_await (b : Byte) : (s.setDt b).await = s.await := rfl
@[simp] theorem State.setDt_fault (b : Byte) : (s.setDt b).fault = s.fault := rfl
@[simp] theorem State.setDt_draws (b : Byte) : (s.setDt b).draws = s.draws := rfl

@[simp] theorem State.setSt_v (b : Byte) : (s.setSt b).v = s.v := rfl
@[simp] theorem State.setSt_i (b : Byte) : (s.setSt b).i = s.i := rfl
@[simp] theorem State.setSt_pc (b : Byte) : (s.setSt b).pc = s.pc := rfl
@[simp] theorem State.setSt_sp (b : Byte) : (s.setSt b).sp = s.sp := rfl
@[simp] theorem State.setSt_stack (b : Byte) : (s.setSt b).stack = s.stack := rfl
@[simp] theorem State.setSt_dt (b : Byte) : (s.setSt b).dt = s.dt := rfl
@[simp] theorem State.setSt_st (b : Byte) : (s.setSt b).st = b := rfl
@[simp] theorem State.setSt_mem (b : Byte) : (s.setSt b).mem = s.mem := rfl
@[simp] theorem State.setSt_fb (b : Byte) : (s.setSt b).fb = s.fb := rfl
@[simp] theorem State.setSt_key (b : Byte) : (s.setSt b).key = s.key := rfl
@[simp] theorem State.setSt_await (b : Byte) : (s.setSt b).await = s.await := rfl
@[simp] theorem State.setSt_fault (b : Byte) : (s.setSt b).fault = s.fault := rfl
@[simp] theorem State.setSt_draws (b : Byte) : (s.setSt b).draws = s.draws := rfl

@[simp] theorem State.setMem_v (m : Memory) : (s.setMem m).v = s.v := rfl
@[simp] theorem State.setMem_i (m : Memory) : (s.setMem m).i = s.i := rfl
@[simp] theorem State.setMem_pc (m : Memory) : (s.setMem m).pc = s.pc := rfl
@[simp] theorem State.setMem_sp (m : Memory) : (s.setMem m).sp = s.sp := rfl
@[simp] theorem State.setMem_stack (m : Memory) : (s.setMem m).stack = s.stack := rfl
@[simp] theorem State.setMem_dt (m : Memory) : (s.setMem m).dt = s.dt := rfl
@[simp] theorem State.setMem_st (m : Memory) : (s.setMem m).st = s.st := rfl
@[simp] theorem State.setMem_mem (m : Memory) : (s.setMem m).mem = m := rfl
@[simp] theorem State.setMem_fb (m : Memory) : (s.setMem m).fb = s.fb := rfl
@[simp] theorem State.setMem_key (m : Memory) : (s.setMem m).key = s.key := rfl
@[simp] theorem State.setMem_await (m : Memory) : (s.setMem m).await = s.await := rfl
@[simp] theorem State.setMem_fault (m : Memory) : (s.setMem m).fault = s.fault := rfl
@[simp] theorem State.setMem_draws (m : Memory) : (s.setMem m).draws = s.draws := rfl

@[simp] theorem State.setFb_v (f : Framebuffer) : (s.setFb f).v = s.v := rfl
@[simp] theorem State.setFb_i (f : Framebuffer) : (s.setFb f).i = s.i := rfl
@[simp] theorem State.setFb_pc (f : Framebuffer) : (s.setFb f).pc = s.pc := rfl
@[simp] theorem State.setFb_sp (f : Framebuffer) : (s.setFb f).sp = s.sp := rfl
@[simp] theorem State.setFb_stack (f : Framebuffer) : (s.setFb f).stack = s.stack := rfl
@[simp] theorem State.setFb_dt (f : Framebuffer) : (s.setFb f).dt = s.dt := rfl
@[simp] theorem State.setFb_st (f : Framebuffer) : (s.setFb f).st = s.st := rfl
@[simp] theorem State.setFb_mem (f : Framebuffer) : (s.setFb f).mem = s.mem := rfl
@[simp] theorem State.setFb_fb (f : Framebuffer) : (s.setFb f).fb = f := rfl
@[simp] theorem State.setFb_key (f : Framebuffer) : (s.setFb f).key = s.key := rfl
@[simp] theorem State.setFb_await (f : Framebuffer) : (s.setFb f).await = s.await := rfl
@[simp] theorem State.setFb_fault (f : Framebuffer) : (s.setFb f).fault = s.fault := rfl
@[simp] theorem State.setFb_draws (f : Framebuffer) : (s.setFb f).draws = s.draws := rfl

@[simp] theorem State.setKeyBit_v (k : Fin 16) (b : Bool) : (s.setKeyBit k b).v = s.v := rfl
@[simp] theorem State.setKeyBit_i (k : Fin 16) (b : Bool) : (s.setKeyBit k b).i = s.i := rfl
@[simp] theorem State.setKeyBit_pc (k : Fin 16) (b : Bool) : (s.setKeyBit k b).pc = s.pc := rfl
@[simp] theorem State.setKeyBit_sp (k : Fin 16) (b : Bool) : (s.setKeyBit k b).sp = s.sp := rfl
@[simp] theorem State.setKeyBit_stack (k : Fin 16) (b : Bool) : (s.setKeyBit k b).stack = s.stack := rfl
@[simp] theorem State.setKeyBit_dt (k : Fin 16) (b : Bool) : (s.setKeyBit k b).dt = s.dt := rfl
@[simp] theorem State.setKeyBit_st (k : Fin 16) (b : Bool) : (s.setKeyBit k b).st = s.st := rfl
@[simp] theorem State.setKeyBit_mem (k : Fin 16) (b : Bool) : (s.setKeyBit k b).mem = s.mem := rfl
@[simp] theorem State.setKeyBit_fb (k : Fin 16) (b : Bool) : (s.setKeyBit k b).fb = s.fb := rfl
@[simp] theorem State.setKeyBit_key (k : Fin 16) (b : Bool) : (s.setKeyBit k b).key = s.key.set k b := rfl
@[simp] theorem State.setKeyBit_await (k : Fin 16) (b : Bool) : (s.setKeyBit k b).await = s.await := rfl
@[simp] theorem State.setKeyBit_fault (k : Fin 16) (b : Bool) : (s.setKeyBit k b).fault = s.fault := rfl
@[simp] theorem State.setKeyBit_draws (k : Fin 16) (b : Bool) : (s.setKeyBit k b).draws = s.draws := rfl

@[simp] theorem State.setAwait_v (a : Option Reg) : (s.setAwait a).v = s.v := rfl
@[simp] theorem State.setAwait_i (a : Option Reg) : (s.setAwait a).i = s.i := rfl
@[simp] theorem State.setAwait_pc (a : Option Reg) : (s.setAwait a).pc = s.pc := rfl
@[simp] theorem State.setAwait_sp (a : Option Reg) : (s.setAwait a).sp = s.sp := rfl
@[simp] theorem State.setAwait_stack (a : Option Reg) : (s.setAwait a).stack = s.stack := rfl
@[simp] theorem State.setAwait_dt (a : Option Reg) : (s.setAwait a).dt = s.dt := rfl
@[simp] theorem State.setAwait_st (a : Option Reg) : (s.setAwait a).st = s.st := rfl
@[simp] theorem State.setAwait_mem (a : Option Reg) : (s.setAwait a).mem = s.mem := rfl
@[simp] theorem State.setAwait_fb (a : Option Reg) : (s.setAwait a).fb = s.fb := rfl
@[simp] theorem State.setAwait_key (a : Option Reg) : (s.setAwait a).key = s.key := rfl
@[simp] theorem State.setAwait_await (a : Option Reg) : (s.setAwait a).await = a := rfl
@[simp] theorem State.setAwait_fault (a : Option Reg) : (s.setAwait a).fault = s.fault := rfl
@[simp] theorem State.setAwait_draws (a : Option Reg) : (s.setAwait a).draws = s.draws := rfl

@[simp] theorem State.setFault_v (f : Option EngineFault) : (s.setFault f).v = s.v := rfl
@[simp] theorem State.setFault_i (f : Option EngineFault) : (s.setFault f).i = s.i := rfl
@[simp] theorem State.setFault_pc (f : Option EngineFault) : (s.setFault f).pc = s.pc := rfl
@[simp] theorem State.setFault_sp (f : Option EngineFault) : (s.setFault f).sp = s.sp := rfl
@[simp] theorem State.setFault_stack (f : Option EngineFault) : (s.setFault f).stack = s.stack := rfl
@[simp] theorem State.setFault_dt (f : Option EngineFault) : (s.setFault f).dt = s.dt := rfl
@[simp] theorem State.setFault_st (f : Option EngineFault) : (s.setFault f).st = s.st := rfl
@[simp] theorem State.setFault_mem (f : Option EngineFault) : (s.setFault f).mem = s.mem := rfl
@[simp] theorem State.setFault_fb (f : Option EngineFault) : (s.setFault f).fb = s.fb := rfl
@[simp] theorem State.setFault_key (f : Option EngineFault) : (s.setFault f).key = s.key := rfl
@[simp] theorem State.setFault_await (f : Option EngineFault) : (s.setFault f).await = s.await := rfl
@[simp] theorem State.setFault_fault (f : Option EngineFault) : (s.setFault f).fault = f := rfl
@[simp] theorem State.setFault_draws (f : Option EngineFault) : (s.setFault f).draws = s.draws := rfl

@[simp] theorem State.countDraw_v : (s.countDraw).v = s.v := rfl
@[simp] theorem State.countDraw_i : (s.countDraw).i = s.i := rfl
@[simp] theorem State.countDraw_pc : (s.countDraw).pc = s.pc := rfl
@[simp] theorem State.countDraw_sp : (s.countDraw).sp = s.sp := rfl
@[simp] theorem State.countDraw_stack : (s.countDraw).stack = s.stack := rfl
@[simp] theorem State.countDraw_dt : (s.countDraw).dt = s.dt := rfl
@[simp] theorem State.countDraw_st : (s.countDraw).st = s.st := rfl
@[simp] theorem State.countDraw_mem : (s.countDraw).mem = s.mem := rfl
@[simp] theorem State.countDraw_fb : (s.countDraw).fb = s.fb := rfl
@[simp] theorem State.countDraw_key : (s.countDraw).key = s.key := rfl
@[simp] theorem State.countDraw_await : (s.countDraw).await = s.await := rfl
@[simp] theorem State.countDraw_fault : (s.countDraw).fault = s.fault := rfl
@[simp] theorem State.countDraw_draws : (s.countDraw).draws = s.draws + 1 := rfl

@[simp] theorem State.memWrite_v (a : Word) (b : Byte) : (s.memWrite a b).v = s.v := rfl
@[simp] theorem State.memWrite_i (a : Word) (b : Byte) : (s.memWrite a b).i = s.i := rfl
@[simp] theorem State.memWrite_pc (a : Word) (b : Byte) : (s.memWrite a b).pc = s.pc := rfl
@[simp] theorem State.memWrite_sp (a : Word) (b : Byte) : (s.memWrite a b).sp = s.sp := rfl
@[simp] theorem State.memWrite_stack (a : Word) (b : Byte) : (s.memWrite a b).stack = s.stack := rfl
@[simp] theorem State.memWrite_dt (a : Word) (b : Byte) : (s.memWrite a b).dt = s.dt := rfl
@[simp] theorem State.memWrite_st (a : Word) (b : Byte) : (s.memWrite a b).st = s.st := rfl
@[simp] theorem State.memWrite_mem (a : Word) (b : Byte) : (s.memWrite a b).mem = Memory.write s.mem (memCell a) b := rfl
@[simp] theorem State.memWrite_fb (a : Word) (b : Byte) : (s.memWrite a b).fb = s.fb := rfl
@[simp] theorem State.memWrite_key (a : Word) (b : Byte) : (s.memWrite a b).key = s.key := rfl
@[simp] theorem State.memWrite_await (a : Word) (b : Byte) : (s.memWrite a b).await = s.await := rfl
@[simp] theorem State.memWrite_fault (a : Word) (b : Byte) : (s.memWrite a b).fault = s.fault := rfl
@[simp] theorem State.memWrite_draws (a : Word) (b : Byte) : (s.memWrite a b).draws = s.draws := rfl

@[simp] theorem State.memWriteSeq_v (a : Word) (bs : List Byte) : (s.memWriteSeq a bs).v = s.v := rfl
@[simp] theorem State.memWriteSeq_i (a : Word) (bs : List Byte) : (s.memWriteSeq a bs).i = s.i := rfl
@[simp] theorem State.memWriteSeq_pc (a : Word) (bs : List Byte) : (s.memWriteSeq a bs).pc = s.pc := rfl
@[simp] theorem State.memWriteSeq_sp (a : Word) (bs : List Byte) : (s.memWriteSeq a bs).sp = s.sp := rfl
@[simp] theorem State.memWriteSeq_stack (a : Word) (bs : List Byte) : (s.memWriteSeq a bs).stack = s.stack := rfl
@[simp] theorem State.memWriteSeq_dt (a : Word) (bs : List Byte) : (s.memWriteSeq a bs).dt = s.dt := rfl
@[simp] theorem State.memWriteSeq_st (a : Word) (bs : List Byte) : (s.memWriteSeq a bs).st = s.st := rfl
@[simp] theorem State.memWriteSeq_mem (a : Word) (bs : List Byte) : (s.memWriteSeq a bs).mem = Memory.writeSeq s.mem a bs := rfl
@[simp] theorem State.memWriteSeq_fb (a : Word) (bs : List Byte) : (s.memWriteSeq a bs).fb = s.fb := rfl
@[simp] theorem State.memWriteSeq_key (a : Word) (bs : List Byte) : (s.memWriteSeq a bs).key = s.key := rfl
@[simp] theorem State.memWriteSeq_await (a : Word) (bs : List Byte) : (s.memWriteSeq a bs).await = s.await := rfl
@[simp] theorem State.memWriteSeq_fault (a : Word) (bs : List Byte) : (s.memWriteSeq a bs).fault = s.fault := rfl
@[simp] theorem State.memWriteSeq_draws (a : Word) (bs : List Byte) : (s.memWriteSeq a bs).draws = s.draws := rfl

@[simp] theorem State.raiseFault_v (f : EngineFault) : (s.raiseFault f).v = s.v := rfl
@[simp] theorem State.raiseFault_i (f : EngineFault) : (s.raiseFault f).i = s.i := rfl
@[simp] theorem State.raiseFault_pc (f : EngineFault) : (s.raiseFault f).pc = s.pc := rfl
@[simp] theorem State.raiseFault_sp (f : EngineFault) : (s.raiseFault f).sp = s.sp := rfl
@[simp] theorem State.raiseFault_stack (f : EngineFault) : (s.raiseFault f).stack = s.stack := rfl
@[simp] theorem State.raiseFault_dt (f : EngineFault) : (s.raiseFault f).dt = s.dt := rfl
@[simp] theorem State.raiseFault_st (f : EngineFault) : (s.raiseFault f).st = s.st := rfl
@[simp] theorem State.raiseFault_mem (f : EngineFault) : (s.raiseFault f).mem = s.mem := rfl
@[simp] theorem State.raiseFault_fb (f : EngineFault) : (s.raiseFault f).fb = s.fb := rfl
@[simp] theorem State.raiseFault_key (f : EngineFault) : (s.raiseFault f).key = s.key := rfl
@[simp] theorem State.raiseFault_await (f : EngineFault) : (s.raiseFault f).await = s.await := rfl
@[simp] theorem State.raiseFault_fault (f : EngineFault) : (s.raiseFault f).fault = some f := rfl
@[simp] theorem State.raiseFault_draws (f : EngineFault) : (s.raiseFault f).draws = s.draws := rfl

@[simp] theorem State.advancePc_v : (s.advancePc).v = s.v := rfl
@[simp] theorem State.advancePc_i : (s.advancePc).i = s.i := rfl
@[simp] theorem State.advancePc_pc : (s.advancePc).pc = s.pc + 2 := rfl
@[simp] theorem State.advancePc_sp : (s.advancePc).sp = s.sp := rfl
@[simp] theorem State.advancePc_stack : (s.advancePc).stack = s.stack := rfl
@[simp] theorem State.advancePc_dt : (s.advancePc).dt = s.dt := rfl
@[simp] theorem State.advancePc_st : (s.advancePc).st = s.st := rfl
@[simp] theorem State.advancePc_mem : (s.advancePc).mem = s.mem := rfl
@[simp] theorem State.advancePc_fb : (s.advancePc).fb = s.fb := rfl
@[simp] theorem State.advancePc_key : (s.advancePc).key = s.key := rfl
@[simp] theorem State.advancePc_await : (s.advancePc).await = s.await := rfl
@[simp] theorem State.advancePc_fault : (s.advancePc).fault = s.fault := rfl
@[simp] theorem State.advancePc_draws : (s.advancePc).draws = s.draws := rfl

/-! Reading a register or memory after an update. -/

@[simp] theorem State.reg_eq (x : Reg) : s.reg x = s.v[x] := rfl

theorem State.setReg_get (x r : Reg) (b : Byte) : (s.setReg x b).v[r] = if r = x then b else s.v[r] := by
  simp only [State.setReg_v, Fin.getElem_fin, Vector.getElem_set, Fin.ext_iff, eq_comm]

theorem State.setReg_get_self (x : Reg) (b : Byte) : (s.setReg x b).v[x] = b := by
  rw [State.setReg_get, if_pos rfl]

theorem State.setReg_get_ne (x r : Reg) (b : Byte) (h : r ≠ x) : (s.setReg x b).v[r] = s.v[r] := by
  rw [State.setReg_get, if_neg h]

/-- Only memory decides what memory reads. -/
theorem State.memRead_congr {s t : State} (h : t.mem = s.mem) (a : Word) : t.memRead a = s.memRead a := by
  simp only [State.memRead, h]

end Sys2Proof.Machine
end

