-- ==== Sys2Proof/Laws/Display.lean ====
section
/-! SUPPORT. What the XOR-plot engine does, pixel by pixel (spec 45_display.md R201 to R205). -/

namespace Sys2Proof.Machine

theorem Canvas.plot_pixel (k : Canvas) (c c' : Fin 64) (r r' : Fin 32) :
    (k.plot c r).fb[c'][r'] = if c' = c ∧ r' = r then !k.fb[c'][r'] else k.fb[c'][r'] := by
  simp only [Canvas.plot, Fin.getElem_fin, Vector.getElem_set, Fin.ext_iff]
  by_cases hc : (c : Nat) = c'
  · by_cases hr : (r : Nat) = r' <;> simp [hc, hr, eq_comm]
  · simp [hc, Ne.symm hc]

theorem not_iff_of_not {a p : Prop} (h : ¬ p) : ¬ (a ↔ p) ↔ a := by tauto

/-- The first `m` pixels of a sprite row: each set bit toggles its pixel, and `hit` records a pixel that was lit
(45_display.md R201, R203). -/
theorem Canvas.plotBits_spec (cx row : Nat) (b : Byte) (k : Canvas) (m : Nat) (hm : m ≤ 8) :
    let k' := (List.range m).foldl (Canvas.plotBit cx row b) k
    (∀ c r, k'.fb[c][r] = true ↔ ¬ (k.fb[c][r] = true ↔
      ∃ j < m, b.getLsbD (7 - j) = true ∧ c = Fin.ofNat 64 (cx + j) ∧ r = Fin.ofNat 32 row)) ∧
    (k'.hit = true ↔ k.hit = true ∨
      ∃ j < m, b.getLsbD (7 - j) = true ∧ k.fb[Fin.ofNat 64 (cx + j)][Fin.ofNat 32 row] = true) := by
  induction m with
  | zero => simp
  | succ m ih =>
    obtain ⟨ihf, ihh⟩ := ih (by omega)
    rw [List.range_succ, List.foldl_append]
    simp only [List.foldl_cons, List.foldl_nil]
    generalize (List.range m).foldl (Canvas.plotBit cx row b) k = k1 at ihf ihh
    have fresh : ¬ ∃ j < m, b.getLsbD (7 - j) = true ∧ Fin.ofNat 64 (cx + m) = Fin.ofNat 64 (cx + j) ∧
        Fin.ofNat 32 row = Fin.ofNat 32 row := by
      rintro ⟨j, hj, -, hc, -⟩
      rw [Fin.ext_iff] at hc
      simp only [Fin.val_ofNat] at hc
      omega
    have grow : ∀ P : Nat → Prop, (∃ j < m + 1, P j) ↔ (∃ j < m, P j) ∨ P m := fun P =>
      ⟨fun ⟨j, hj, h⟩ => (Nat.lt_succ_iff_lt_or_eq.mp hj).elim (fun hj => .inl ⟨j, hj, h⟩) (fun hj => .inr (hj ▸ h)),
        fun h => h.elim (fun ⟨j, hj, h⟩ => ⟨j, by omega, h⟩) (fun h => ⟨m, by omega, h⟩)⟩
    rw [grow]
    unfold Canvas.plotBit
    split
    · rename_i hb
      constructor
      · intro c r
        rw [grow, Canvas.plot_pixel]
        by_cases hcr : c = Fin.ofNat 64 (cx + m) ∧ r = Fin.ofNat 32 row
        · obtain ⟨rfl, rfl⟩ := hcr
          rw [if_pos ⟨rfl, rfl⟩, iff_true_intro (Or.inr ⟨hb, rfl, rfl⟩), iff_true, Bool.not_eq_true', ← Bool.not_eq_true,
            (ihf _ _).trans (not_iff_of_not fresh)]
        · rw [if_neg hcr, ihf c r]
          have : ¬ (b.getLsbD (7 - m) = true ∧ c = Fin.ofNat 64 (cx + m) ∧ r = Fin.ofNat 32 row) := fun h => hcr h.2
          simp only [this, or_false]
      · have same := (ihf _ _).trans (not_iff_of_not fresh)
        simp only [Canvas.plot, Bool.or_eq_true, ihh, hb, true_and, same, or_assoc]
    · rename_i hb
      refine ⟨fun c r => ?_, ?_⟩
      · rw [grow, ihf c r]; simp [hb]
      · rw [ihh]; simp [hb]

/-- A whole sprite of at most 32 rows: the plotted pixels are toggled, the others kept, and `hit` records that a plotted
pixel was lit (45_display.md R201, R203, R205). -/
theorem Canvas.plotSprite_spec (cx cy : Nat) (rows : Nat → Byte) (n : Nat) (hn : n ≤ 32) (k : Canvas) :
    let k' := Canvas.plotSprite cx cy rows n k
    (∀ c r, k'.fb[c][r] = true ↔ ¬ (k.fb[c][r] = true ↔ Plots cx cy rows n c r)) ∧
    (k'.hit = true ↔ k.hit = true ∨ ∃ c r, Plots cx cy rows n c r ∧ k.fb[c][r] = true) := by
  induction n with
  | zero => simp [Canvas.plotSprite, Plots]
  | succ n ih =>
    obtain ⟨ihf, ihh⟩ := ih (by omega)
    rw [Canvas.plotSprite]
    generalize Canvas.plotSprite cx cy rows n k = k1 at ihf ihh
    obtain ⟨hf, hh⟩ := Canvas.plotBits_spec cx (cy + n) (rows n) k1 8 (Nat.le_refl 8)
    have grow : ∀ c r, Plots cx cy rows (n + 1) c r ↔ Plots cx cy rows n c r ∨
        ∃ j < 8, (rows n).getLsbD (7 - j) = true ∧ c = Fin.ofNat 64 (cx + j) ∧ r = Fin.ofNat 32 (cy + n) := fun c r =>
      ⟨fun ⟨i, hi, h⟩ => (Nat.lt_succ_iff_lt_or_eq.mp hi).elim (fun hi => .inl ⟨i, hi, h⟩) (fun hi => .inr (hi ▸ h)),
        fun h => h.elim (fun ⟨i, hi, h⟩ => ⟨i, by omega, h⟩) (fun h => ⟨n, by omega, h⟩)⟩
    have fresh : ∀ c r, r = Fin.ofNat 32 (cy + n) → ¬ Plots cx cy rows n c r := by
      rintro c r rfl ⟨i, hi, j, hj, -, -, hr⟩
      rw [Fin.ext_iff] at hr
      simp only [Fin.val_ofNat] at hr
      omega
    refine ⟨fun c r => ?_, ?_⟩
    · refine (hf c r).trans ?_
      rw [ihf c r, grow]
      by_cases hr : r = Fin.ofNat 32 (cy + n)
      · simp [fresh c r hr]
      · have hno : ¬ ∃ j < 8, (rows n).getLsbD (7 - j) = true ∧ c = Fin.ofNat 64 (cx + j) ∧ r = Fin.ofNat 32 (cy + n) :=
          fun ⟨_, _, _, _, h⟩ => hr h
        rw [not_iff_of_not hno, or_iff_left hno]
    · refine hh.trans ?_
      rw [ihh]
      constructor
      · rintro ((h | ⟨c, r, h, hl⟩) | ⟨j, hj, hb, hl⟩)
        · exact .inl h
        · exact .inr ⟨c, r, (grow c r).mpr (.inl h), hl⟩
        · have lit := ((ihf _ _).trans (not_iff_of_not (fresh _ _ rfl))).mp hl
          exact .inr ⟨_, _, (grow _ _).mpr (.inr ⟨j, hj, hb, rfl, rfl⟩), lit⟩
      · rintro (h | ⟨c, r, h, hl⟩)
        · exact .inl (.inl h)
        · rcases (grow c r).mp h with h | ⟨j, hj, hb, rfl, rfl⟩
          · exact .inl (.inr ⟨c, r, h, hl⟩)
          · exact .inr ⟨j, hj, hb, ((ihf _ _).trans (not_iff_of_not (fresh _ _ rfl))).mpr hl⟩

end Sys2Proof.Machine
end

