-- ==== Sys2Proof/Laws/Memory.lean ====
section
/-! SUPPORT. What memory reads after a write (spec 20_memory.md R57, R59), that every memory operation keeps the canonical
form, and that in that form equal bytes are equal data. -/

namespace Sys2Proof.Machine

/-! Reads after writes, for every list whether canonical or not. -/

theorem Memory.read_erase (m : Memory) (a b : Nat) :
    Memory.read (Memory.erase m a) b = if b = a then Memory.unlisted a else Memory.read m b := by
  induction m with
  | nil => by_cases h : b = a <;> simp [Memory.erase, Memory.read, h]
  | cons c m ih =>
    obtain ⟨k, w⟩ := c
    unfold Memory.erase at ih ⊢
    by_cases hk : k = a
    · subst hk
      by_cases hb : b = k <;> simp_all [Memory.read]
    · by_cases hb : b = k <;> simp_all [Memory.read]

theorem Memory.read_insert (m : Memory) (a : Nat) (v : Byte) (b : Nat) (hm : ∀ c ∈ m, c.1 ≠ a) :
    Memory.read (Memory.insert m a v) b = if b = a then v else Memory.read m b := by
  induction m with
  | nil => rfl
  | cons c m ih =>
    obtain ⟨k, w⟩ := c
    have hk : k ≠ a := hm (k, w) (by simp)
    have ih := ih fun c hc => hm c (by simp [hc])
    unfold Memory.insert
    split
    · rfl
    · by_cases hb : b = k
      · simp [Memory.read, hb, hk]
      · simp [Memory.read, hb, ih]

/-- A cell reads as what was last written to it (20_memory.md R57, R59). -/
theorem Memory.read_write (m : Memory) (a : Nat) (v : Byte) (b : Nat) :
    Memory.read (Memory.write m a v) b = if b = a then v else Memory.read m b := by
  unfold Memory.write
  split
  · rename_i h
    rw [Memory.read_erase, h]
  · rw [Memory.read_insert _ _ _ _ (by simp [Memory.erase]), Memory.read_erase]
    by_cases hb : b = a <;> simp [hb]

theorem memCell_lt (a : Word) : memCell a < 4096 := Nat.mod_lt _ (by decide)

theorem memCell_add_one (a : Word) : memCell (a + 1) = (memCell a + 1) % 4096 := by
  simp only [memCell, BitVec.toNat_add, show (1 : Word).toNat = 1 from rfl]; omega

/-- The cell of an address `j` on from another (20_memory.md R51). -/
theorem memCell_add (a : Word) (j : Nat) :
    memCell (a + BitVec.ofNat 16 j) = (memCell a + j) % 4096 := by
  simp only [memCell, BitVec.toNat_add, BitVec.toNat_ofNat]; omega

/-- After up to 4096 bytes stored from `a` on, a cell reads as the byte stored at its distance from `a`, or as before
(20_memory.md R51, R53). -/
theorem Memory.read_writeSeq (bs : List Byte) (m : Memory) (a : Word) (c : Nat) (hbs : bs.length ≤ 4096) (hc : c < 4096) :
    Memory.read (Memory.writeSeq m a bs) c = bs.getD ((c + 4096 - memCell a) % 4096) (Memory.read m c) := by
  induction bs generalizing m a with
  | nil => rfl
  | cons b bs ih =>
    simp only [List.length_cons] at hbs
    rw [Memory.writeSeq, ih _ _ (by omega), memCell_add_one, Memory.read_write]
    have ha := memCell_lt a
    by_cases h : c = memCell a
    · have e1 : (c + 4096 - (memCell a + 1) % 4096) % 4096 = 4095 := by omega
      have e2 : (c + 4096 - memCell a) % 4096 = 0 := by omega
      rw [e1, e2, List.getD_eq_default _ _ (by omega), if_pos h, List.getD_cons_zero]
    · have e : (c + 4096 - memCell a) % 4096 = (c + 4096 - (memCell a + 1) % 4096) % 4096 + 1 := by omega
      rw [e, List.getD_cons_succ, if_neg h]

/-- `Memory.read_writeSeq` on the state. -/
theorem State.memRead_memWriteSeq (s : State) (a : Word) (bs : List Byte) (hbs : bs.length ≤ 4096) (b : Word) :
    (s.memWriteSeq a bs).memRead b = bs.getD ((memCell b + 4096 - memCell a) % 4096) (s.memRead b) :=
  Memory.read_writeSeq bs s.mem a (memCell b) hbs (memCell_lt b)

/-! The canonical form. -/

theorem Memory.wfFrom_mono {m : Memory} {lo lo' : Nat} (h : Memory.wfFrom lo m = true) (hlo : lo' ≤ lo) :
    Memory.wfFrom lo' m = true := by
  cases m with
  | nil => rfl
  | cons c m =>
    simp only [Memory.wfFrom, Bool.and_eq_true, decide_eq_true_eq] at h ⊢
    exact ⟨⟨⟨Nat.le_trans hlo h.1.1.1, h.1.1.2⟩, h.1.2⟩, h.2⟩

theorem Memory.wfFrom_erase {m : Memory} {lo : Nat} (a : Nat) (h : Memory.wfFrom lo m = true) :
    Memory.wfFrom lo (Memory.erase m a) = true := by
  unfold Memory.erase
  induction m generalizing lo with
  | nil => rfl
  | cons c m ih =>
    obtain ⟨k, w⟩ := c
    simp only [Memory.wfFrom, Bool.and_eq_true, decide_eq_true_eq] at h
    by_cases hk : k = a
    · rw [List.filter_cons_of_neg (by simp [hk])]
      exact ih (Memory.wfFrom_mono h.2 (by omega))
    · rw [List.filter_cons_of_pos (by simp [hk])]
      simp only [Memory.wfFrom, Bool.and_eq_true, decide_eq_true_eq]
      exact ⟨h.1, ih h.2⟩

theorem Memory.wfFrom_insert {m : Memory} {lo a : Nat} {v : Byte} (h : Memory.wfFrom lo m = true)
    (hm : ∀ c ∈ m, c.1 ≠ a) (hlo : lo ≤ a) (ha : a < 4096) (hv : v ≠ Memory.unlisted a) :
    Memory.wfFrom lo (Memory.insert m a v) = true := by
  induction m generalizing lo with
  | nil => simp [Memory.insert, Memory.wfFrom, hlo, ha, hv]
  | cons c m ih =>
    obtain ⟨k, w⟩ := c
    have hk : k ≠ a := hm (k, w) (by simp)
    simp only [Memory.wfFrom, Bool.and_eq_true, decide_eq_true_eq] at h
    unfold Memory.insert
    split
    · simp only [Memory.wfFrom, Bool.and_eq_true, decide_eq_true_eq]
      exact ⟨⟨⟨hlo, ha⟩, hv⟩, ⟨⟨by omega, h.1.1.2⟩, h.1.2⟩, h.2⟩
    · simp only [Memory.wfFrom, Bool.and_eq_true, decide_eq_true_eq]
      exact ⟨h.1, ih h.2 (fun c hc => hm c (by simp [hc])) (by omega)⟩

/-- Writing a byte keeps the canonical form. -/
theorem Memory.wf_write {m : Memory} {a : Nat} (v : Byte) (h : Memory.wf m = true) (ha : a < 4096) :
    Memory.wf (Memory.write m a v) = true := by
  unfold Memory.wf Memory.write at *
  split
  · exact Memory.wfFrom_erase a h
  · exact Memory.wfFrom_insert (Memory.wfFrom_erase a h) (by simp [Memory.erase]) (Nat.zero_le _) ha ‹_›

/-- Storing bytes keeps the canonical form. -/
theorem Memory.wf_writeSeq {bs : List Byte} {m : Memory} (a : Word) (h : Memory.wf m = true) :
    Memory.wf (Memory.writeSeq m a bs) = true := by
  induction bs generalizing m a with
  | nil => exact h
  | cons b bs ih => exact ih _ (Memory.wf_write b h (memCell_lt a))

/-- Memory right after RESET is in the canonical form. -/
theorem State.reset_mem_wf : Memory.wf State.reset.mem = true := rfl

theorem Memory.read_below {m : Memory} {lo : Nat} (h : Memory.wfFrom lo m = true) (a : Nat) (ha : a < lo) :
    Memory.read m a = Memory.unlisted a := by
  induction m generalizing lo with
  | nil => rfl
  | cons c m ih =>
    obtain ⟨k, w⟩ := c
    simp only [Memory.wfFrom, Bool.and_eq_true, decide_eq_true_eq] at h
    rw [Memory.read, if_neg (by omega)]
    exact ih h.2 (by omega)

theorem Memory.eq_of_read_from {m m' : Memory} {lo : Nat} (h : Memory.wfFrom lo m = true) (h' : Memory.wfFrom lo m' = true)
    (hr : ∀ a < 4096, Memory.read m a = Memory.read m' a) : m = m' := by
  induction m generalizing lo m' with
  | nil =>
    cases m' with
    | nil => rfl
    | cons c m' =>
      obtain ⟨k, w⟩ := c
      simp only [Memory.wfFrom, Bool.and_eq_true, decide_eq_true_eq] at h'
      have := hr k h'.1.1.2
      simp only [Memory.read, if_true] at this
      exact absurd this.symm h'.1.2
  | cons c m ih =>
    obtain ⟨k, w⟩ := c
    simp only [Memory.wfFrom, Bool.and_eq_true, decide_eq_true_eq] at h
    cases m' with
    | nil =>
      have := hr k h.1.1.2
      simp only [Memory.read, if_true] at this
      exact absurd this h.1.2
    | cons c' m' =>
      obtain ⟨k', w'⟩ := c'
      simp only [Memory.wfFrom, Bool.and_eq_true, decide_eq_true_eq] at h'
      have hk : k = k' := by
        rcases Nat.lt_trichotomy k k' with hlt | heq | hgt
        · have := hr k h.1.1.2
          rw [Memory.read, if_pos rfl, Memory.read, if_neg (by omega), Memory.read_below h'.2 k (by omega)] at this
          exact absurd this h.1.2
        · exact heq
        · have := hr k' h'.1.1.2
          rw [Memory.read, if_neg (by omega), Memory.read_below h.2 k' (by omega), Memory.read, if_pos rfl] at this
          exact absurd this.symm h'.1.2
      subst hk
      have hw : w = w' := by simpa [Memory.read] using hr k h.1.1.2
      subst hw
      rw [ih h.2 h'.2 fun a ha => ?_]
      by_cases hak : a = k
      · subst hak
        rw [Memory.read_below h.2 a (by omega), Memory.read_below h'.2 a (by omega)]
      · simpa [Memory.read, hak] using hr a ha

/-- In the canonical form, memories that read alike are the same list. -/
theorem Memory.eq_of_read {m m' : Memory} (h : Memory.wf m = true) (h' : Memory.wf m' = true)
    (hr : ∀ a < 4096, Memory.read m a = Memory.read m' a) : m = m' := Memory.eq_of_read_from h h' hr

end Sys2Proof.Machine
end

