-- ==== Sys2Proof/Laws/Ops.lean ====
section
/-! SUPPORT. For each shared operation, what it does, said once; later proofs cite these and do not unfold. -/

namespace Sys2Proof.Machine

variable (s : State)

/-! Arithmetic: the exact computations, narrowed, are the wrapping operations on bit vectors. -/

theorem addBytes_eq (a b : Byte) : addBytes a b = a + b := by
  apply BitVec.eq_of_toNat_eq; simp [addBytes]

theorem subBytes_eq (a b : Byte) : subBytes a b = a - b := by
  apply BitVec.eq_of_toNat_eq
  have := a.isLt; have := b.isLt
  simp only [subBytes, BitVec.toNat_ofNat, BitVec.toNat_sub]; omega

theorem shiftRight_eq (a : Byte) : shiftRight a = a >>> 1 := by
  revert a; decide

theorem shiftLeft_eq (a : Byte) : shiftLeft a = a <<< 1 := by
  revert a; decide

theorem addToI_eq (w : Word) (b : Byte) : addToI w b = w + b.setWidth 16 := by
  apply BitVec.eq_of_toNat_eq
  have := b.isLt
  simp only [addToI, BitVec.toNat_ofNat, BitVec.toNat_add, BitVec.toNat_setWidth]; omega

theorem carryFlag_eq (a b : Byte) : carryFlag a b = if 255 < a.toNat + b.toNat then 1 else 0 := by
  simp [carryFlag, flagOf]

theorem noBorrowFlag_eq (a b : Byte) : noBorrowFlag a b = if b ≤ a then 1 else 0 := by
  simp [noBorrowFlag, flagOf, BitVec.le_def]

/-- A flag is 1 exactly if its condition holds (43_load_alu.md R166). -/
theorem flagOf_eq_one (b : Bool) : flagOf b = 1 ↔ b = true := by cases b <;> decide

theorem flagOf_eq_zero (b : Bool) : flagOf b = 0 ↔ b = false := by cases b <;> decide

/-! A result with its flag (43_load_alu.md R166 to R171). -/

theorem State.setWithFlag_vf (res flag : Byte) :
    s.setWithFlag VF res flag = (s.setReg VF (Config.vfClash s.draws)).countDraw := rfl

theorem State.setWithFlag_ne {x : Reg} (h : x ≠ VF) (res flag : Byte) :
    s.setWithFlag x res flag = (s.setReg x res).setReg VF flag := if_neg h

@[simp] theorem State.setWithFlag_i (x : Reg) (res flag : Byte) : (s.setWithFlag x res flag).i = s.i := by
  unfold State.setWithFlag; split <;> rfl
@[simp] theorem State.setWithFlag_pc (x : Reg) (res flag : Byte) : (s.setWithFlag x res flag).pc = s.pc := by
  unfold State.setWithFlag; split <;> rfl
@[simp] theorem State.setWithFlag_sp (x : Reg) (res flag : Byte) : (s.setWithFlag x res flag).sp = s.sp := by
  unfold State.setWithFlag; split <;> rfl
@[simp] theorem State.setWithFlag_stack (x : Reg) (res flag : Byte) : (s.setWithFlag x res flag).stack = s.stack := by
  unfold State.setWithFlag; split <;> rfl
@[simp] theorem State.setWithFlag_dt (x : Reg) (res flag : Byte) : (s.setWithFlag x res flag).dt = s.dt := by
  unfold State.setWithFlag; split <;> rfl
@[simp] theorem State.setWithFlag_st (x : Reg) (res flag : Byte) : (s.setWithFlag x res flag).st = s.st := by
  unfold State.setWithFlag; split <;> rfl
@[simp] theorem State.setWithFlag_mem (x : Reg) (res flag : Byte) : (s.setWithFlag x res flag).mem = s.mem := by
  unfold State.setWithFlag; split <;> rfl
@[simp] theorem State.setWithFlag_fb (x : Reg) (res flag : Byte) : (s.setWithFlag x res flag).fb = s.fb := by
  unfold State.setWithFlag; split <;> rfl
@[simp] theorem State.setWithFlag_key (x : Reg) (res flag : Byte) : (s.setWithFlag x res flag).key = s.key := by
  unfold State.setWithFlag; split <;> rfl
@[simp] theorem State.setWithFlag_await (x : Reg) (res flag : Byte) : (s.setWithFlag x res flag).await = s.await := by
  unfold State.setWithFlag; split <;> rfl
@[simp] theorem State.setWithFlag_fault (x : Reg) (res flag : Byte) : (s.setWithFlag x res flag).fault = s.fault := by
  unfold State.setWithFlag; split <;> rfl

/-- The registers after a result with its flag: the result in `x`, the flag in `VF`, the others kept. -/
theorem State.setWithFlag_get {x : Reg} (h : x ≠ VF) (res flag : Byte) (r : Reg) :
    (s.setWithFlag x res flag).v[r] = if r = VF then flag else if r = x then res else s.v[r] := by
  rw [State.setWithFlag_ne s h, State.setReg_get, State.setReg_get]

/-! Skips (42_skips.md R140). -/

theorem State.skipIf_pc (c : Bool) : (s.skipIf c).pc = if c then s.pc + 2 else s.pc := rfl

@[simp] theorem State.skipIf_v (c : Bool) : (s.skipIf c).v = s.v := rfl
@[simp] theorem State.skipIf_i (c : Bool) : (s.skipIf c).i = s.i := rfl
@[simp] theorem State.skipIf_sp (c : Bool) : (s.skipIf c).sp = s.sp := rfl
@[simp] theorem State.skipIf_stack (c : Bool) : (s.skipIf c).stack = s.stack := rfl
@[simp] theorem State.skipIf_dt (c : Bool) : (s.skipIf c).dt = s.dt := rfl
@[simp] theorem State.skipIf_st (c : Bool) : (s.skipIf c).st = s.st := rfl
@[simp] theorem State.skipIf_mem (c : Bool) : (s.skipIf c).mem = s.mem := rfl
@[simp] theorem State.skipIf_fb (c : Bool) : (s.skipIf c).fb = s.fb := rfl
@[simp] theorem State.skipIf_key (c : Bool) : (s.skipIf c).key = s.key := rfl
@[simp] theorem State.skipIf_await (c : Bool) : (s.skipIf c).await = s.await := rfl
@[simp] theorem State.skipIf_fault (c : Bool) : (s.skipIf c).fault = s.fault := rfl
@[simp] theorem State.skipIf_draws (c : Bool) : (s.skipIf c).draws = s.draws := rfl

/-! The key test (42_skips.md R144, R146). -/

theorem State.keyPressed_key (k : Byte) (h : k.toNat < 16) : s.keyPressed k = (s.key[k.toNat], s) := dif_pos h

theorem State.keyPressed_free (k : Byte) (h : ¬ k.toNat < 16) :
    s.keyPressed k = (Config.keyOob s.draws, s.countDraw) := dif_neg h

/-- The key test changes nothing but the count of free values. -/
theorem State.keyPressed_state (k : Byte) : (s.keyPressed k).2 = s ∨ (s.keyPressed k).2 = s.countDraw := by
  unfold State.keyPressed; split
  · exact .inl rfl
  · exact .inr rfl

/-! Register transfers (46_timer_memory.md R227, R228). -/

theorem State.regsFrom_get (base : Word) (x r : Reg) :
    (s.regsFrom base x)[r] = if r ≤ x then s.memRead (base + BitVec.ofNat 16 r.val) else s.v[r] := by
  simp only [State.regsFrom, Fin.getElem_fin, Vector.getElem_ofFn]

theorem State.regsUpTo_length (x : Reg) : (s.regsUpTo x).length = x.val + 1 := by
  simp only [State.regsUpTo, List.length_take, Vector.length_toList]; omega

theorem State.regsUpTo_getD (x : Reg) (k : Nat) (d : Byte) :
    (s.regsUpTo x).getD k d = if h : k ≤ x.val then s.v[k] else d := by
  unfold State.regsUpTo
  by_cases h : k ≤ x.val
  · have hk : k < 16 := by omega
    rw [dif_pos h, List.getD_eq_getElem?_getD, List.getElem?_take_of_lt (by omega)]
    simp [hk]
  · rw [dif_neg h, List.getD_eq_default _ _ (by simp; omega)]

/-! The return stack (10_state.md R29). -/

/-- There is an entry for each index below 16, and no other. -/
theorem State.stackEntry_of_lt (j : Nat) (h : j < 16) : s.stackEntry j = some s.stack[j] := by
  simp [State.stackEntry, h]

theorem State.push_eq (w : Word) (h : s.sp.toNat < 16) :
    s.push w h = (s.setStack (s.stack.set s.sp.toNat w h)).setSp (s.sp + 1) := rfl

/-! The state after RESET, for any font (10_state.md R38, R39). -/

/-- RESET puts the font from 0x000 on and 0 everywhere after it. -/
theorem State.resetWith_memRead (font : Font) (a : Word) :
    (State.resetWith font).memRead a = font.toList.getD (memCell a) 0 := by
  have ha := memCell_lt a
  have h0 : memCell Config.fontBase = 0 := rfl
  have e : (memCell a + 4096 - memCell Config.fontBase) % 4096 = memCell a := by rw [h0]; omega
  rw [State.resetWith, State.memRead_memWriteSeq _ _ _ (by simp), e]
  by_cases h : memCell a < 80
  · rw [List.getD_eq_getElem _ _ (by simpa using h), List.getD_eq_getElem _ _ (by simpa using h)]
  · have outside : Config.fontTable.length ≤ memCell a := Nat.le_of_not_lt h
    rw [List.getD_eq_default _ _ (by simpa using h), List.getD_eq_default _ _ (by simpa using h)]
    exact List.getD_eq_default _ _ outside

theorem State.resetWith_mem_wf (font : Font) : Memory.wf (State.resetWith font).mem = true :=
  Memory.wf_writeSeq _ State.reset_mem_wf

/-- Only memory depends on the font. -/
theorem State.resetWith_eq (font : Font) : State.resetWith font = State.reset.setMem (State.resetWith font).mem := rfl

/-- A font that reads as the default one gives `State.reset`: equal bytes in the canonical form are equal data. -/
theorem State.resetWith_of_table (font : Font) (h : font.toList = Config.fontTable) :
    State.resetWith font = State.reset := by
  have hm : (State.resetWith font).mem = State.reset.mem :=
    Memory.eq_of_read (State.resetWith_mem_wf font) State.reset_mem_wf fun a ha => by
      have e : memCell (BitVec.ofNat 16 a) = a := by simp only [memCell, BitVec.toNat_ofNat]; omega
      have r := State.resetWith_memRead font (BitVec.ofNat 16 a)
      rw [State.memRead, e, h] at r
      exact r
  rw [State.resetWith_eq, hm]; rfl

theorem State.resetWith_default : State.resetWith Config.font = State.reset := State.resetWith_of_table _ rfl

/-! Fetch (40_step_cycle.md R101). -/

/-- The word stored for the next fetch is the word fetched. -/
theorem State.fetchWord_stored (w : Word) : (s.memWriteSeq s.pc (wordBytes w)).fetchWord = w := by
  have h0 : (memCell s.pc + 4096 - memCell s.pc) % 4096 = 0 := by have := memCell_lt s.pc; omega
  have h1 : (memCell (s.pc + 1) + 4096 - memCell s.pc) % 4096 = 1 := by
    have := memCell_lt s.pc; rw [memCell_add_one]; omega
  unfold State.fetchWord
  rw [State.memWriteSeq_pc, State.memRead_memWriteSeq _ _ _ (by simp [wordBytes]),
    State.memRead_memWriteSeq _ _ _ (by simp [wordBytes]), h0, h1]
  exact hiByte_append_loByte w

end Sys2Proof.Machine
end

