-- ==== Sys2Proof/Laws/Frame.lean ====
section
/-! SUPPORT. The frame of each shared operation, in the terms of Safety.lean: what it leaves as it was. -/

namespace Sys2Proof.Machine

variable {s t : State}

/-- The same memory list reads the same everywhere. -/
theorem SameMemory.of_mem (h : t.mem = s.mem) : SameMemory s t := State.memRead_congr h

/-- A state that differs in registers and draws only. -/
theorem SameBeyondRegs.of_fields (h : ∃ v d, t = { s with v := v, draws := d }) : SameBeyondRegs s t := by
  obtain ⟨v, d, rfl⟩ := h
  exact ⟨rfl, rfl, ⟨rfl, rfl⟩, ⟨rfl, rfl⟩, fun _ => rfl, ⟨rfl, rfl⟩, rfl, rfl⟩

/-- A state that differs in `PC` and draws only. -/
theorem SameButPc.of_fields (h : ∃ p d, t = { s with pc := p, draws := d }) : SameButPc s t := by
  obtain ⟨p, d, rfl⟩ := h
  exact ⟨rfl, rfl, ⟨rfl, rfl⟩, ⟨rfl, rfl⟩, fun _ => rfl, ⟨rfl, rfl⟩, rfl, rfl⟩

theorem State.setReg_frame (s : State) (x : Reg) (b : Byte) :
    (s.setReg x b).v[x] = b ∧ SameRegsBut [x] s (s.setReg x b) ∧ SameBeyondRegs s (s.setReg x b) ∧
      NoDraw s (s.setReg x b) :=
  ⟨State.setReg_get_self .., fun r hr => State.setReg_get_ne _ _ _ _ (by simpa using hr), .of_fields ⟨_, _, rfl⟩, rfl⟩

theorem State.setRegs_frame (s : State) (v : Vector Byte 16) :
    SameBeyondRegs s (s.setRegs v) ∧ NoDraw s (s.setRegs v) := ⟨.of_fields ⟨_, _, rfl⟩, rfl⟩

/-- A result with its flag, for a destination other than `VF` (43_load_alu.md R166 to R170). -/
theorem State.setWithFlag_frame (s : State) {x : Reg} (h : x ≠ VF) (res flag : Byte) :
    (s.setWithFlag x res flag).v[x] = res ∧ (s.setWithFlag x res flag).v[VF] = flag ∧
      SameRegsBut [x, VF] s (s.setWithFlag x res flag) ∧ SameBeyondRegs s (s.setWithFlag x res flag) ∧
      NoDraw s (s.setWithFlag x res flag) := by
  refine ⟨?_, ?_, fun r hr => ?_, ?_⟩
  · rw [State.setWithFlag_get s h, if_neg h, if_pos rfl]
  · rw [State.setWithFlag_get s h, if_pos rfl]
  · rw [List.mem_cons, List.mem_singleton, not_or] at hr
    rw [State.setWithFlag_get s h, if_neg hr.2, if_neg hr.1]
  · rw [State.setWithFlag_ne s h]
    exact ⟨.of_fields ⟨_, _, rfl⟩, rfl⟩

/-- A result with its flag where the destination is `VF` (43_load_alu.md R171). -/
theorem State.setWithFlag_vf_frame (s : State) (res flag : Byte) :
    (s.setWithFlag VF res flag).v[VF] = Config.vfClash s.draws ∧ SameRegsBut [VF] s (s.setWithFlag VF res flag) ∧
      SameBeyondRegs s (s.setWithFlag VF res flag) ∧ (s.setWithFlag VF res flag).draws = s.draws + 1 := by
  rw [State.setWithFlag_vf]
  exact ⟨State.setReg_get_self .., fun r hr => State.setReg_get_ne _ _ _ _ (by simpa using hr),
    .of_fields ⟨_, _, rfl⟩, rfl⟩

theorem State.setPc_frame (s : State) (p : Word) : SameButPc s (s.setPc p) ∧ NoDraw s (s.setPc p) :=
  ⟨.of_fields ⟨_, _, rfl⟩, rfl⟩

theorem State.skipIf_frame (s : State) (c : Bool) : SameButPc s (s.skipIf c) ∧ NoDraw s (s.skipIf c) :=
  s.setPc_frame _

theorem State.countDraw_skipIf_frame (s : State) (c : Bool) :
    SameButPc s (s.countDraw.skipIf c) ∧ (s.countDraw.skipIf c).draws = s.draws + 1 :=
  ⟨.of_fields ⟨_, _, rfl⟩, rfl⟩

/-- Byte `j` of a store reads back at `base + j` (20_memory.md R51, R59). -/
theorem State.memWriteSeq_read (s : State) (base : Word) (bs : List Byte) (h : bs.length ≤ 4096) (j : Nat) (hj : j < bs.length) :
    (s.memWriteSeq base bs).memRead (base + BitVec.ofNat 16 j) = bs[j] := by
  have hb := memCell_lt base
  have e : (memCell (base + BitVec.ofNat 16 j) + 4096 - memCell base) % 4096 = j := by rw [memCell_add]; omega
  rw [State.memRead_memWriteSeq s base bs h, e, List.getD_eq_getElem _ _ hj]

/-- A store changes no byte but those it stores. -/
theorem State.memWriteSeq_frame (s : State) (base : Word) (bs : List Byte) (h : bs.length ≤ 4096) :
    SameMemoryBut base bs.length s (s.memWriteSeq base bs) := by
  intro a ha
  have h1 := memCell_lt a
  have h2 := memCell_lt base
  rw [State.memRead_memWriteSeq s base bs h]
  refine List.getD_eq_default _ _ (Nat.le_of_not_lt fun hlt => ha _ hlt ?_)
  rw [memCell_add]; omega

end Sys2Proof.Machine
end

