-- ==== Sys2Proof/Laws/PerInstr.lean ====
section
/-! SUPPORT. One lemma per instruction: its encoding is accepted by a row of the decode table (spec 30_encoding.md R74) that
builds the same instruction, operands included. -/

namespace Sys2Proof.Laws.OwnRow

/-- Some row of the table accepts the word of `i` and reads `i` from it. -/
def Statement (i : Instr) : Prop := ∃ r ∈ opcodeRows, r.accepts (encode i) = true ∧ r.build (encode i) = i

/-- A row of the table, by its place, is the instruction's own. -/
theorem of_place {i : Instr} (k : Nat) {m : String} {asm : String} {pat mask : Word} {build : Word → Instr}
    (hk : opcodeRows[k]? = some ⟨m, asm, pat, mask, build⟩) (ha : (encode i &&& mask == pat) = true)
    (hb : build (encode i) = i) : Statement i :=
  ⟨_, List.mem_of_getElem? hk, ha, hb⟩

/-- A row whose fixed bits are the class accepts every word of the class. -/
theorem accepts_class (c : BitVec 4) (nnn : Addr12) : (wordNnn c nnn &&& 0xF000 == wordNnn c 0) = true := by
  rw [beq_iff_eq]
  exact (BitVec.and_append (x₁ := c) (x₂ := 15) (y₁ := nnn) (y₂ := 0)).trans
    (congrArg₂ (· ++ ·) BitVec.and_allOnes BitVec.and_zero)

/-- A row whose fixed bits are the class and the low byte accepts the words that have both. -/
theorem accepts_byteRow (c : BitVec 4) (x : Reg) (kk : Byte) : (wordXKk c x kk &&& 0xF0FF == wordXKk c 0 kk) = true := by
  rw [beq_iff_eq]
  have h : (toNibble x ++ kk : Addr12) &&& 0x0FF = toNibble 0 ++ kk :=
    (BitVec.and_append (x₁ := toNibble x) (x₂ := 0) (y₁ := kk) (y₂ := 0xFF)).trans
      (congrArg₂ (· ++ ·) BitVec.and_zero BitVec.and_allOnes)
  exact (BitVec.and_append (x₁ := c) (x₂ := 15) (y₁ := toNibble x ++ kk) (y₂ := 0x0FF)).trans
    (congrArg₂ (· ++ ·) BitVec.and_allOnes h)

/-- A row whose fixed bits are the class and the low nibble accepts the words that have both. -/
theorem accepts_nibble (c : BitVec 4) (x y : Reg) (n : BitVec 4) :
    (wordXYN c x y n &&& 0xF00F == wordXYN c 0 0 n) = true := by
  rw [beq_iff_eq]
  have h : (toNibble y ++ n : Byte) &&& 0x0F = toNibble 0 ++ n :=
    (BitVec.and_append (x₁ := toNibble y) (x₂ := 0) (y₁ := n) (y₂ := 0xF)).trans
      (congrArg₂ (· ++ ·) BitVec.and_zero BitVec.and_allOnes)
  have h : (toNibble x ++ (toNibble y ++ n) : Addr12) &&& 0x00F = toNibble 0 ++ (toNibble 0 ++ n) :=
    (BitVec.and_append (x₁ := toNibble x) (x₂ := 0) (y₁ := toNibble y ++ n) (y₂ := 0x0F)).trans
      (congrArg₂ (· ++ ·) BitVec.and_zero h)
  exact (BitVec.and_append (x₁ := c) (x₂ := 15) (y₁ := toNibble x ++ (toNibble y ++ n)) (y₂ := 0x00F)).trans
    (congrArg₂ (· ++ ·) BitVec.and_allOnes h)

theorem cls : Statement .cls := of_place 0 rfl (by decide) rfl

theorem ret : Statement .ret := of_place 1 rfl (by decide) rfl

theorem sys (nnn : Addr12) : Statement (.sys nnn) :=
  of_place 2 rfl (accepts_class 0 nnn) (congrArg Instr.sys (fieldNnn_word 0 nnn))

theorem jp (nnn : Addr12) : Statement (.jp nnn) :=
  of_place 3 rfl (accepts_class 1 nnn) (congrArg Instr.jp (fieldNnn_word 1 nnn))

theorem call (nnn : Addr12) : Statement (.call nnn) :=
  of_place 4 rfl (accepts_class 2 nnn) (congrArg Instr.call (fieldNnn_word 2 nnn))

theorem seImm (x : Reg) (kk : Byte) : Statement (.seImm x kk) :=
  of_place 5 rfl (accepts_class 3 _) (congrArg₂ Instr.seImm (fieldX_word 3 x kk) (fieldKk_word 3 x kk))

theorem sneImm (x : Reg) (kk : Byte) : Statement (.sneImm x kk) :=
  of_place 6 rfl (accepts_class 4 _) (congrArg₂ Instr.sneImm (fieldX_word 4 x kk) (fieldKk_word 4 x kk))

theorem seReg (x y : Reg) : Statement (.seReg x y) :=
  of_place 7 rfl (accepts_nibble 5 x y 0) (congrArg₂ Instr.seReg (fieldX_wordXYN 5 x y 0) (fieldY_word 5 x y 0))

theorem ldImm (x : Reg) (kk : Byte) : Statement (.ldImm x kk) :=
  of_place 8 rfl (accepts_class 6 _) (congrArg₂ Instr.ldImm (fieldX_word 6 x kk) (fieldKk_word 6 x kk))

theorem addImm (x : Reg) (kk : Byte) : Statement (.addImm x kk) :=
  of_place 9 rfl (accepts_class 7 _) (congrArg₂ Instr.addImm (fieldX_word 7 x kk) (fieldKk_word 7 x kk))

theorem ldReg (x y : Reg) : Statement (.ldReg x y) :=
  of_place 10 rfl (accepts_nibble 8 x y 0) (congrArg₂ Instr.ldReg (fieldX_wordXYN 8 x y 0) (fieldY_word 8 x y 0))

theorem or (x y : Reg) : Statement (.or x y) :=
  of_place 11 rfl (accepts_nibble 8 x y 1) (congrArg₂ Instr.or (fieldX_wordXYN 8 x y 1) (fieldY_word 8 x y 1))

theorem and (x y : Reg) : Statement (.and x y) :=
  of_place 12 rfl (accepts_nibble 8 x y 2) (congrArg₂ Instr.and (fieldX_wordXYN 8 x y 2) (fieldY_word 8 x y 2))

theorem xor (x y : Reg) : Statement (.xor x y) :=
  of_place 13 rfl (accepts_nibble 8 x y 3) (congrArg₂ Instr.xor (fieldX_wordXYN 8 x y 3) (fieldY_word 8 x y 3))

theorem addReg (x y : Reg) : Statement (.addReg x y) :=
  of_place 14 rfl (accepts_nibble 8 x y 4) (congrArg₂ Instr.addReg (fieldX_wordXYN 8 x y 4) (fieldY_word 8 x y 4))

theorem sub (x y : Reg) : Statement (.sub x y) :=
  of_place 15 rfl (accepts_nibble 8 x y 5) (congrArg₂ Instr.sub (fieldX_wordXYN 8 x y 5) (fieldY_word 8 x y 5))

theorem shr (x y : Reg) : Statement (.shr x y) :=
  of_place 16 rfl (accepts_nibble 8 x y 6) (congrArg₂ Instr.shr (fieldX_wordXYN 8 x y 6) (fieldY_word 8 x y 6))

theorem subn (x y : Reg) : Statement (.subn x y) :=
  of_place 17 rfl (accepts_nibble 8 x y 7) (congrArg₂ Instr.subn (fieldX_wordXYN 8 x y 7) (fieldY_word 8 x y 7))

theorem shl (x y : Reg) : Statement (.shl x y) :=
  of_place 18 rfl (accepts_nibble 8 x y 0xE) (congrArg₂ Instr.shl (fieldX_wordXYN 8 x y 0xE) (fieldY_word 8 x y 0xE))

theorem sneReg (x y : Reg) : Statement (.sneReg x y) :=
  of_place 19 rfl (accepts_nibble 9 x y 0) (congrArg₂ Instr.sneReg (fieldX_wordXYN 9 x y 0) (fieldY_word 9 x y 0))

theorem ldI (nnn : Addr12) : Statement (.ldI nnn) :=
  of_place 20 rfl (accepts_class 0xA nnn) (congrArg Instr.ldI (fieldNnn_word 0xA nnn))

theorem jpV0 (nnn : Addr12) : Statement (.jpV0 nnn) :=
  of_place 21 rfl (accepts_class 0xB nnn) (congrArg Instr.jpV0 (fieldNnn_word 0xB nnn))

theorem rnd (x : Reg) (kk : Byte) : Statement (.rnd x kk) :=
  of_place 22 rfl (accepts_class 0xC _) (congrArg₂ Instr.rnd (fieldX_word 0xC x kk) (fieldKk_word 0xC x kk))

theorem drw (x y : Reg) (n : Fin 16) : Statement (.drw x y n) :=
  of_place 23 rfl (accepts_class 0xD _)
    (congr (congrArg₂ Instr.drw (fieldX_wordXYN 0xD x y _) (fieldY_word 0xD x y _)) (fieldN_word 0xD x y (toNibble n)))

theorem skp (x : Reg) : Statement (.skp x) :=
  of_place 24 rfl (accepts_byteRow 0xE x 0x9E) (congrArg Instr.skp (fieldX_word 0xE x 0x9E))

theorem sknp (x : Reg) : Statement (.sknp x) :=
  of_place 25 rfl (accepts_byteRow 0xE x 0xA1) (congrArg Instr.sknp (fieldX_word 0xE x 0xA1))

theorem ldVxDt (x : Reg) : Statement (.ldVxDt x) :=
  of_place 26 rfl (accepts_byteRow 0xF x 0x07) (congrArg Instr.ldVxDt (fieldX_word 0xF x 0x07))

theorem ldVxK (x : Reg) : Statement (.ldVxK x) :=
  of_place 27 rfl (accepts_byteRow 0xF x 0x0A) (congrArg Instr.ldVxK (fieldX_word 0xF x 0x0A))

theorem ldDtVx (x : Reg) : Statement (.ldDtVx x) :=
  of_place 28 rfl (accepts_byteRow 0xF x 0x15) (congrArg Instr.ldDtVx (fieldX_word 0xF x 0x15))

theorem ldStVx (x : Reg) : Statement (.ldStVx x) :=
  of_place 29 rfl (accepts_byteRow 0xF x 0x18) (congrArg Instr.ldStVx (fieldX_word 0xF x 0x18))

theorem addI (x : Reg) : Statement (.addI x) :=
  of_place 30 rfl (accepts_byteRow 0xF x 0x1E) (congrArg Instr.addI (fieldX_word 0xF x 0x1E))

theorem ldF (x : Reg) : Statement (.ldF x) :=
  of_place 31 rfl (accepts_byteRow 0xF x 0x29) (congrArg Instr.ldF (fieldX_word 0xF x 0x29))

theorem ldB (x : Reg) : Statement (.ldB x) :=
  of_place 32 rfl (accepts_byteRow 0xF x 0x33) (congrArg Instr.ldB (fieldX_word 0xF x 0x33))

theorem stRegs (x : Reg) : Statement (.stRegs x) :=
  of_place 33 rfl (accepts_byteRow 0xF x 0x55) (congrArg Instr.stRegs (fieldX_word 0xF x 0x55))

theorem ldRegs (x : Reg) : Statement (.ldRegs x) :=
  of_place 34 rfl (accepts_byteRow 0xF x 0x65) (congrArg Instr.ldRegs (fieldX_word 0xF x 0x65))

end Sys2Proof.Laws.OwnRow
end

