-- ==== Sys2Proof/Laws/Step.lean ====
section
/-! SUPPORT. What one step can do, said once (spec 40_step_cycle.md R100), and the same for the host's operations. -/

namespace Sys2Proof.Machine

variable {s t : State}

/-- Everything a step that answers a next state can be: a hold, an instruction run, or a decode error taken. -/
theorem step_cases (h : step s = .next t) :
    s.fault = none ∧
      ((∃ x, s.await = some x ∧ t = s) ∨
        (s.await = none ∧ ∃ i, decode s.fetchWord = .ok i ∧ exec i s.advancePc = .next t) ∨
        (s.await = none ∧ (∃ e, decode s.fetchWord = .error e) ∧
          t = s.advancePc.raiseFault (.decodeError s.fetchWord s.pc))) := by
  unfold step at h
  split at h
  · cases h
  · rename_i x hf ha
    exact ⟨hf, .inl ⟨x, ha, (Host.Outcome.next.inj h).symm⟩⟩
  · rename_i hf ha
    refine ⟨hf, .inr ?_⟩
    split at h
    · rename_i i hd
      exact .inl ⟨ha, i, hd, h⟩
    · rename_i e hd
      exact .inr ⟨ha, ⟨e, hd⟩, (Host.Outcome.next.inj h).symm⟩

/-- A word is rejected under its own name only. -/
theorem decodeWith_error (rows : List Row) (w : Word) (e : DecodeReject) (h : decodeWith rows w = .error e) :
    e = .unassigned w := by
  induction rows with
  | nil => exact (Except.error.inj h).symm
  | cons r rest ih =>
    unfold decodeWith at h
    split at h
    · cases h
    · exact ih h

theorem decode_error {w : Word} {e : DecodeReject} (h : decode w = .error e) : decode w = .error (.unassigned w) := by
  rw [h, decodeWith_error _ _ _ h]

/-- CALL as one of two: a push, or the engine fault (41_control_transfer.md R122, R123). -/
theorem execCall_cases (nnn : Addr12) (s : State) :
    (∃ h : s.sp.toNat < 16, execCall nnn s = .next ((s.push s.pc h).setPc (addrOf nnn))) ∨
      (16 ≤ s.sp.toNat ∧ execCall nnn s = .next (s.raiseFault (.stackOverflow s.fetchAddr))) := by
  unfold execCall
  by_cases h : s.sp.toNat < 16
  · exact .inl ⟨h, dif_pos h⟩
  · exact .inr ⟨by omega, dif_neg h⟩

/-- RET as one of three: a no-op, a pop, or the stop of an illegal `SP` (41_control_transfer.md R124, log 20). -/
theorem execRet_cases (s : State) :
    (s.sp = 0 ∧ execRet s = .next s) ∨
      (s.sp ≠ 0 ∧ ∃ h : s.sp.toNat - 1 < 16, execRet s = .next ((s.setSp (s.sp - 1)).setPc s.stack[s.sp.toNat - 1])) ∨
      (16 < s.sp.toNat ∧ execRet s = .fault (.stackPointer s.sp)) := by
  unfold execRet
  by_cases h0 : s.sp = 0
  · exact .inl ⟨h0, if_pos h0⟩
  · rw [if_neg h0]
    by_cases h : s.sp.toNat - 1 < 16
    · exact .inr (.inl ⟨h0, h, by rw [State.stackEntry_of_lt s _ h]⟩)
    · exact .inr (.inr ⟨by omega, by simp [State.stackEntry, h]⟩)

/-- SKP and SKNP: a skip on some bit, from the state with at most one free value taken (42_skips.md R144, R145). -/
theorem execSkp_cases (x : Reg) (s : State) :
    ∃ p u, (u = s ∨ u = s.countDraw) ∧ execSkp x s = .next (u.skipIf p) :=
  ⟨(s.keyPressed (s.reg x)).1, (s.keyPressed (s.reg x)).2, s.keyPressed_state _, rfl⟩

theorem execSknp_cases (x : Reg) (s : State) :
    ∃ p u, (u = s ∨ u = s.countDraw) ∧ execSknp x s = .next (u.skipIf p) :=
  ⟨!(s.keyPressed (s.reg x)).1, (s.keyPressed (s.reg x)).2, s.keyPressed_state _, rfl⟩

/-- SKP and SKNP by the key number: a key the core has, or the free value and one draw (42_skips.md R144 to R146). -/
theorem execSkp_key (x : Reg) (s : State) (h : (s.v[x]).toNat < 16) :
    execSkp x s = .next (s.skipIf s.key[(s.v[x]).toNat]) := by
  unfold execSkp; rw [State.reg_eq, State.keyPressed_key s _ h]

theorem execSkp_free (x : Reg) (s : State) (h : ¬ (s.v[x]).toNat < 16) :
    execSkp x s = .next (s.countDraw.skipIf (Config.keyOob s.draws)) := by
  unfold execSkp; rw [State.reg_eq, State.keyPressed_free s _ h]

theorem execSknp_key (x : Reg) (s : State) (h : (s.v[x]).toNat < 16) :
    execSknp x s = .next (s.skipIf !s.key[(s.v[x]).toNat]) := by
  unfold execSknp; rw [State.reg_eq, State.keyPressed_key s _ h]

theorem execSknp_free (x : Reg) (s : State) (h : ¬ (s.v[x]).toNat < 16) :
    execSknp x s = .next (s.countDraw.skipIf !Config.keyOob s.draws) := by
  unfold execSknp; rw [State.reg_eq, State.keyPressed_free s _ h]

/-- STEP of a core that is not waiting replies with the fault it raised, or `Ok` (40_step_cycle.md R105). -/
theorem stepOp_of_next (h : step s = .next t) (ha : s.await = none) : stepOp s = .next (t, stepReply t) := by
  unfold stepOp; rw [h, ha]; rfl

/-- The invariant holds after RESET, for any font. -/
theorem State.resetOp_inv (s : State) (font : Font) : (s.resetOp font).Inv :=
  ⟨State.resetWith_mem_wf font, Nat.zero_le 16, .inl rfl, trivial⟩

/-- SET_KEY as one of two: it drives the key, and besides it may end a wait (60_exceptions.md R266, R267). -/
theorem setKey_cases (s : State) (k : Fin 16) (b : Bool) :
    s.setKey k b = s.setKeyBit k b ∨
      (∃ x, s.await = some x ∧ b = true ∧ s.key[k] = false ∧
        s.setKey k b = ((s.setKeyBit k b).setReg x (BitVec.ofNat 8 k.val)).setAwait none) := by
  unfold State.setKey
  split
  · rename_i x ha
    split
    · rename_i h
      simp only [Bool.and_eq_true, Bool.not_eq_true'] at h
      exact .inr ⟨x, ha, h.1, h.2, rfl⟩
    · exact .inl rfl
  · exact .inl rfl

end Sys2Proof.Machine
end

