-- ==== Sys2Proof/Tests/Slice0.lean ====
section
/-! SUPPORT. Small tests, each one step or one operation; expected results are those of spec/95_test_vectors.md (the id in each
comment) or a hand calculation from the rule named. Then the witnesses of Certificates/Slice0/Obligations.lean. -/

namespace Sys2Proof.Machine.Test

/-- The answer is a next state with the property `p`. -/
def nextWith (r : Result) (p : State → Bool) : Bool :=
  match r with
  | .next t => p t
  | _ => false

/-- The host operation answers a state with the property `p`. -/
def hostWith (r : HostResult) (p : State → Reply → Bool) : Bool :=
  match r with
  | .next (t, a) => p t a
  | _ => false

/-- One step of `s` on the word `w` stored at `PC`. -/
def run (w : Nat) (s : State) : Result := step (s.withFetchWord 16 w)

/-- Registers set one by one from the reset state. -/
def regs (l : List (Reg × Byte)) : State := l.foldl (fun s p => s.setReg p.1 p.2) State.reset

/-! Well-formedness (30_encoding.md R75). -/

theorem test_wellFormed_refuses_sys_0E0 : ¬ WellFormed (.sys 0x0E0) := by decide
theorem test_wellFormed_refuses_sys_0EE : ¬ WellFormed (.sys 0x0EE) := by decide
theorem test_wellFormed_takes_sys_0E1 : WellFormed (.sys 0x0E1) := by decide

/-! Decoding: a word per row, written out from the pattern column of 30_encoding.md R74 (EN-1 to EN-30 where one exists). -/

theorem test_decode_cls : decode 0b0000000011100000 = .ok (.cls) := by decide
theorem test_decode_ret : decode 0b0000000011101110 = .ok (.ret) := by decide
theorem test_decode_sys : decode 0b0000000011100001 = .ok (.sys 0x0E1) := by decide
theorem test_decode_jp : decode 0b0001101010111100 = .ok (.jp 0xABC) := by decide
theorem test_decode_call : decode 0b0010111111111111 = .ok (.call 0xFFF) := by decide
theorem test_decode_seImm : decode 0b0011101001111111 = .ok (.seImm 0xA 0x7F) := by decide
theorem test_decode_sneImm : decode 0b0100000000000001 = .ok (.sneImm 0 0x01) := by decide
theorem test_decode_seReg : decode 0b0101000100100000 = .ok (.seReg 1 2) := by decide
theorem test_decode_ldImm : decode 0b0110111111111110 = .ok (.ldImm 0xF 0xFE) := by decide
theorem test_decode_addImm : decode 0b0111111000000001 = .ok (.addImm 0xE 0x01) := by decide
theorem test_decode_ldReg : decode 0b1000101010110000 = .ok (.ldReg 0xA 0xB) := by decide
theorem test_decode_or : decode 0b1000101010110001 = .ok (.or 0xA 0xB) := by decide
theorem test_decode_and : decode 0b1000101010110010 = .ok (.and 0xA 0xB) := by decide
theorem test_decode_xor : decode 0b1000101010110011 = .ok (.xor 0xA 0xB) := by decide
theorem test_decode_addReg : decode 0b1000101010110100 = .ok (.addReg 0xA 0xB) := by decide
theorem test_decode_sub : decode 0b1000101010110101 = .ok (.sub 0xA 0xB) := by decide
theorem test_decode_shr : decode 0b1000101010110110 = .ok (.shr 0xA 0xB) := by decide
theorem test_decode_subn : decode 0b1000101010110111 = .ok (.subn 0xA 0xB) := by decide
theorem test_decode_shl : decode 0b1000101010111110 = .ok (.shl 0xA 0xB) := by decide
theorem test_decode_sneReg : decode 0b1001000100100000 = .ok (.sneReg 1 2) := by decide
theorem test_decode_ldI : decode 0b1010000100100011 = .ok (.ldI 0x123) := by decide
theorem test_decode_jpV0 : decode 0b1011111111111110 = .ok (.jpV0 0xFFE) := by decide
theorem test_decode_rnd : decode 0b1100010110100101 = .ok (.rnd 5 0xA5) := by decide
theorem test_decode_drw : decode 0b1101000100100011 = .ok (.drw 1 2 3) := by decide
theorem test_decode_skp : decode 0b1110000110011110 = .ok (.skp 1) := by decide
theorem test_decode_sknp : decode 0b1110000110100001 = .ok (.sknp 1) := by decide
theorem test_decode_ldVxDt : decode 0b1111001000000111 = .ok (.ldVxDt 2) := by decide
theorem test_decode_ldVxK : decode 0b1111000100001010 = .ok (.ldVxK 1) := by decide
theorem test_decode_ldDtVx : decode 0b1111010000010101 = .ok (.ldDtVx 4) := by decide
theorem test_decode_ldStVx : decode 0b1111010000011000 = .ok (.ldStVx 4) := by decide
theorem test_decode_addI : decode 0b1111001000011110 = .ok (.addI 2) := by decide
theorem test_decode_ldF : decode 0b1111011000101001 = .ok (.ldF 6) := by decide
theorem test_decode_ldB : decode 0b1111000000110011 = .ok (.ldB 0) := by decide
theorem test_decode_stRegs : decode 0b1111001001010101 = .ok (.stRegs 2) := by decide
theorem test_decode_ldRegs : decode 0b1111111101100101 = .ok (.ldRegs 0xF) := by decide

/-- EN-11, EN-17, EN-18, EN-20, EN-27, EN-29 and the words of DE-1 to DE-6. -/
theorem test_decode_rejects :
    [0x5121, 0x8AB8, 0x8ABF, 0x912F, 0xE1A0, 0xF130, 0x8008, 0x9001, 0xE000, 0xF0FF, 0x800F].all
      (fun w => decode w == .error (.unassigned w)) = true := by decide

/-- Words of other variants in class 0, against R80's last sentence: log 34. -/
theorem test_decode_foreign_class0 :
    decode 0x00FE = .ok (.sys 0x0FE) ∧ decode 0x00FF = .ok (.sys 0x0FF) ∧ decode 0x00C4 = .ok (.sys 0x0C4) := by decide

theorem test_decode_bytes : decodeBytes [0xF1, 0x65, 0x12] = .ok (.ldRegs 1, [0x12]) := by decide
theorem test_decode_truncated : decodeBytes [0xF1] = .error .truncated := by decide
theorem test_encode_drw : encodeBytes (.drw 1 2 3) = [0xD1, 0x23] := by decide
theorem test_table_word : decodeTableWord 16 0xE59E = some (.skp 5) := by decide

/-! Control transfer. -/

/-- CT-1 -/
theorem test_sys : nextWith (run 0x0123 (State.reset)) (fun t => t.pc == 0x202 && t.v == State.reset.v) = true := by decide

/-- CT-4 -/
theorem test_jp : nextWith (run 0x1201 (State.reset)) (fun t => t.pc == 0x201) = true := by decide

/-- CT-7 -/
theorem test_call : nextWith (run 0x2300 (State.reset.setSp 15)) (fun t => t.pc == 0x300 && t.sp == 16 && t.stack[15] == 0x202) = true := by decide

/-- CT-9 -/
theorem test_call_wraps : nextWith (run 0x2300 (State.reset.setPc 0xFFFE)) (fun t => t.pc == 0x300 && t.sp == 1 && t.stack[0] == 0) = true := by decide

/-- CT-12 -/
theorem test_ret : nextWith (run 0x00EE (((State.reset.setStack (State.reset.stack.set 1 0x402)).setSp 2).setPc 0x500)) (fun t => t.pc == 0x402 && t.sp == 1 && t.stack[1] == 0x402) = true := by decide

/-- CT-11 -/
theorem test_ret_empty : nextWith (run 0x00EE (State.reset)) (fun t => t.pc == 0x202 && t.sp == 0) = true := by decide

/-- CT-14 -/
theorem test_jpV0 : nextWith (run 0xBFFF (regs [(0, 0xFF)])) (fun t => t.pc == 0x10FE) = true := by decide

/-- CT-15 -/
theorem test_jpV0_always_V0 : nextWith (run 0xB1FF (regs [(0, 0x01), (1, 0x77)])) (fun t => t.pc == 0x200) = true := by decide

/-! Skips. -/

/-- SK-3 -/
theorem test_seImm : nextWith (run 0x3142 ((regs [(1, 0x42)]).setPc 0xFFFC)) (fun t => t.pc == 0) = true := by decide

/-- SK-2 -/
theorem test_seImm_no : nextWith (run 0x3142 (regs [(1, 0x41)])) (fun t => t.pc == 0x202) = true := by decide

/-- SK-4 -/
theorem test_sneImm : nextWith (run 0x4142 (regs [(1, 0x41)])) (fun t => t.pc == 0x204) = true := by decide

/-- SK-5 -/
theorem test_sneImm_no : nextWith (run 0x4142 (regs [(1, 0x42)])) (fun t => t.pc == 0x202) = true := by decide

/-- SK-6 -/
theorem test_seReg : nextWith (run 0x5230 (regs [(2, 7), (3, 7)])) (fun t => t.pc == 0x204) = true := by decide

/-- SK-7 -/
theorem test_seReg_no : nextWith (run 0x5230 (regs [(2, 7), (3, 8)])) (fun t => t.pc == 0x202) = true := by decide

/-- SK-9 -/
theorem test_sneReg : nextWith (run 0x9230 (regs [(2, 7), (3, 8)])) (fun t => t.pc == 0x204) = true := by decide

/-- SK-11 -/
theorem test_sneReg_no : nextWith (run 0x9220 (regs [(2, 9)])) (fun t => t.pc == 0x202) = true := by decide

/-- SK-12 -/
theorem test_skp : nextWith (run 0xE59E ((regs [(5, 0xA)]).setKeyBit 0xA true)) (fun t => t.pc == 0x204) = true := by decide

/-- SK-13 -/
theorem test_skp_no : nextWith (run 0xE59E (regs [(5, 0xA)])) (fun t => t.pc == 0x202) = true := by decide

/-- SK-14 -/
theorem test_sknp : nextWith (run 0xE5A1 (regs [(5, 0xA)])) (fun t => t.pc == 0x204) = true := by decide

/-- SK-15 -/
theorem test_sknp_no : nextWith (run 0xE5A1 ((regs [(5, 0xA)]).setKeyBit 0xA true)) (fun t => t.pc == 0x202) = true := by decide

/-! Loads and ALU. -/

/-- AL-1 -/
theorem test_ldImm : nextWith (run 0x6A2F (State.reset)) (fun t => t.v[10] == 0x2F && t.pc == 0x202) = true := by decide

/-- AL-3 -/
theorem test_addImm : nextWith (run 0x7302 (regs [(3, 0xFF)])) (fun t => t.v[3] == 0x01 && t.v[15] == 0) = true := by decide

/-- AL-5 -/
theorem test_addImm_vf : nextWith (run 0x7F02 (regs [(15, 0xFF)])) (fun t => t.v[15] == 0x01) = true := by decide

/-- AL-6 -/
theorem test_ldReg : nextWith (run 0x8120 (regs [(2, 0x99)])) (fun t => t.v[1] == 0x99) = true := by decide

/-- AL-7 -/
theorem test_or : nextWith (run 0x8121 (regs [(1, 0x0F), (2, 0xF0), (15, 7)])) (fun t => t.v[1] == 0xFF && t.v[15] == 7) = true := by decide

/-- AL-8 -/
theorem test_and : nextWith (run 0x8122 (regs [(1, 0x3C), (2, 0x0F), (15, 7)])) (fun t => t.v[1] == 0x0C && t.v[15] == 7) = true := by decide

/-- AL-9 -/
theorem test_xor : nextWith (run 0x8123 (regs [(1, 0x3C), (2, 0x0F)])) (fun t => t.v[1] == 0x33) = true := by decide

/-- AL-11 -/
theorem test_addReg : nextWith (run 0x8014 (regs [(0, 0xFF), (1, 0x01)])) (fun t => t.v[0] == 0 && t.v[15] == 1) = true := by decide

/-- AL-14 -/
theorem test_addReg_old_vf : nextWith (run 0x80F4 (regs [(0, 0x10), (15, 5)])) (fun t => t.v[0] == 0x15 && t.v[15] == 0) = true := by decide

/-- AL-15 -/
theorem test_sub : nextWith (run 0x8015 (regs [(0, 1), (1, 2), (15, 0xAA)])) (fun t => t.v[0] == 0xFF && t.v[15] == 0) = true := by decide

/-- AL-16 -/
theorem test_sub_equal : nextWith (run 0x8015 (regs [(0, 5), (1, 5)])) (fun t => t.v[0] == 0 && t.v[15] == 1) = true := by decide

/-- AL-19 -/
theorem test_shr : nextWith (run 0x8346 (regs [(3, 1), (4, 0xFF)])) (fun t => t.v[3] == 0 && t.v[15] == 1) = true := by decide

/-- AL-21 -/
theorem test_subn : nextWith (run 0x8017 (regs [(0, 1), (1, 3)])) (fun t => t.v[0] == 2 && t.v[15] == 1) = true := by decide

/-- AL-22 -/
theorem test_subn_borrow : nextWith (run 0x8017 (regs [(0, 2), (1, 1), (15, 0xAA)])) (fun t => t.v[0] == 0xFF && t.v[15] == 0) = true := by decide

/-- AL-24 -/
theorem test_shl : nextWith (run 0x834E (regs [(3, 0x81)])) (fun t => t.v[3] == 2 && t.v[15] == 1) = true := by decide

/-- AL-25 -/
theorem test_shl_no : nextWith (run 0x834E (regs [(3, 0x7F), (15, 1)])) (fun t => t.v[3] == 0xFE && t.v[15] == 0) = true := by decide

/-- DR-1: VF any value, nothing else changed, one free value taken -/
theorem test_vf_clash : nextWith (run 0x8F14 (regs [(15, 0x10), (1, 0xF5)])) (fun t => t.draws == 1 && t.v[1] == 0xF5 && t.pc == 0x202) = true := by decide

/-- RN-3; the mask alone decides -/
theorem test_rnd_zero_mask : nextWith (run 0xC300 (regs [(3, 0x55)])) (fun t => t.pc == 0x202 && t.draws == 1) = true := by decide

/-- RN-2: with the mask 0xFF the register is the byte drawn. -/
theorem test_rnd : nextWith (execRnd 3 0xFF State.reset) (fun t => decide (t.v[(3 : Reg)] = Config.rnd 0 &&& 0xFF)) = true :=
  decide_eq_true rfl

/-! Display. -/

/-- DS-1 -/
theorem test_drw : nextWith (run 0xD123 (((State.reset.memWriteSeq 0x300 [0x80, 0x00, 0x01]).setI 0x300).setReg 15 0xAA)) (fun t => t.fb[0][0] && t.fb[7][2] && !t.fb[0][1] && !t.fb[1][0] && t.v[15] == 0 && t.i == 0x300) = true := by decide

/-- DS-2, corners -/
theorem test_drw_wraps : nextWith (run 0xD123 ((((State.reset.memWriteSeq 0x300 [0xFF, 0xFF, 0xFF]).setI 0x300).setReg 1 0x3C).setReg 2 0x1E)) (fun t => t.fb[63][31] && t.fb[0][0] && t.fb[3][30] && !t.fb[4][0] && !t.fb[59][31] && !t.fb[0][29] && !t.fb[0][1]) = true := by decide

/-- DS-8 -/
theorem test_cls : nextWith (run 0x00E0 ((State.reset.setFb ((Canvas.plot ⟨Framebuffer.unlit, false⟩ 63 31).fb)).setReg 15 1)) (fun t => !t.fb[63][31] && t.v[15] == 1) = true := by decide

/-! Timers, key wait, `I` and memory. -/

/-- TM-1 -/
theorem test_ldVxDt : nextWith (run 0xF407 (State.reset.setDt 0x3C)) (fun t => t.v[4] == 0x3C && t.dt == 0x3C) = true := by decide

/-- TM-2 -/
theorem test_ldVxK : nextWith (run 0xF30A (State.reset)) (fun t => t.await == some 3 && t.pc == 0x202 && t.v[3] == 0) = true := by decide

/-- TM-3 -/
theorem test_ldDtVx : nextWith (run 0xF415 (regs [(4, 0x3C)])) (fun t => t.dt == 0x3C && t.st == 0) = true := by decide

/-- TM-4 -/
theorem test_ldStVx : nextWith (run 0xF418 (regs [(4, 5)])) (fun t => t.st == 5 && t.dt == 0) = true := by decide

/-- TM-5 -/
theorem test_addI : nextWith (run 0xF21E ((regs [(2, 1)]).setI 0x0FFF)) (fun t => t.i == 0x1000 && t.v[15] == 0) = true := by decide

/-- TM-6 -/
theorem test_addI_wraps : nextWith (run 0xF21E ((regs [(2, 2)]).setI 0xFFFF)) (fun t => t.i == 1) = true := by decide

/-- TM-7 -/
theorem test_ldF : nextWith (run 0xF629 (regs [(6, 0x0A)])) (fun t => t.i == 0x0032) = true := by decide

/-- TM-9 -/
theorem test_ldF_over_15 : nextWith (run 0xF629 (regs [(6, 0xFF)])) (fun t => t.i == 0x04FB) = true := by decide

/-- TM-10 -/
theorem test_ldB : nextWith (run 0xF033 ((regs [(0, 0xFE)]).setI 0x300)) (fun t => t.memRead 0x300 == 2 && t.memRead 0x301 == 5 && t.memRead 0x302 == 4 && t.i == 0x300) = true := by decide

/-- TM-12 -/
theorem test_ldB_wraps : nextWith (run 0xF033 ((regs [(0, 0x64)]).setI 0x0FFE)) (fun t => t.memRead 0xFFE == 1 && t.memRead 0xFFF == 0 && t.memRead 0 == 0) = true := by decide

/-- TM-13 -/
theorem test_stRegs : nextWith (run 0xF255 ((regs [(0, 0x11), (1, 0x22), (2, 0x33), (3, 0x44)]).setI 0x300)) (fun t => t.memRead 0x300 == 0x11 && t.memRead 0x302 == 0x33 && t.memRead 0x303 == 0 && t.i == 0x300) = true := by decide

/-- TM-14 -/
theorem test_stRegs_wraps : nextWith (run 0xF155 ((regs [(0, 0xAB), (1, 0xCD)]).setI 0x0FFF)) (fun t => t.memRead 0xFFF == 0xAB && t.memRead 0 == 0xCD) = true := by decide

/-- TM-15 -/
theorem test_ldRegs : nextWith (run 0xF165 (((State.reset.memWriteSeq 0x300 [0x11, 0x22, 0x33]).setI 0x300))) (fun t => t.v[0] == 0x11 && t.v[1] == 0x22 && t.v[2] == 0 && t.i == 0x300) = true := by decide

/-- R228 with the font of R39: V[F] is the last byte of glyph 2 and its neighbours -/
theorem test_ldRegs_font : nextWith (run 0xFF65 (State.reset)) (fun t => t.v[0] == 0xF0 && t.v[5] == 0x20 && t.v[15] == 0xF0) = true := by decide

/-- TM-17 -/
theorem test_ldI : nextWith (run 0xA2F0 (State.reset.setI 0x0FFF)) (fun t => t.i == 0x02F0) = true := by decide

/-! The step cycle and the host's operations. -/

/-- DE-1 -/
theorem test_decode_error : nextWith (run 0x5121 State.reset)
    (fun t => t.pc == 0x202 && t.fault == some (.decodeError 0x5121 0x200)) = true := by decide

/-- HO-10 -/
theorem test_step_waiting : hostWith (hostOp Config.font .step (State.reset.setAwait (some 2)))
    (fun t a => a == .waiting && t.pc == 0x200 && t.await == some 2) = true := by decide

/-- HO-11 -/
theorem test_step_faulted : hostWith (hostOp Config.font .step (State.reset.setFault (some (.decodeError 0x5121 0x200))))
    (fun t a => a == .err (.decodeError 0x5121 0x200) && t.pc == 0x200) = true := by decide

/-- HO-13 -/
theorem test_fetch_wraps : nextWith (step ((State.reset.memWrite 0xFFF 0x61).setPc 0x0FFF))
    (fun t => t.v[1] == 0xF0 && t.pc == 0x1001) = true := by decide

/-- HO-2 -/
theorem test_tick : hostWith (hostOp Config.font .tick (((State.reset.setDt 0xFF).setSt 0x80).setAwait (some 4)))
    (fun t _ => t.dt == 0xFE && t.st == 0x7F) = true := by decide

/-- HO-1 -/
theorem test_tick_stops_at_zero : hostWith (hostOp Config.font .tick (State.reset.setDt 1))
    (fun t _ => t.dt == 0 && t.st == 0) = true := by decide

/-- HO-3 -/
theorem test_key_held : hostWith (hostOp Config.font (.setKey 9 true) ((State.reset.setAwait (some 4)).setKeyBit 9 true))
    (fun t _ => t.await == some 4 && t.v[4] == 0) = true := by decide

/-- HO-5 -/
theorem test_key_press : hostWith (hostOp Config.font (.setKey 0xC true) ((State.reset.setAwait (some 15)).setReg 15 0x77))
    (fun t _ => t.await == none && t.v[15] == 0x0C && t.key[12]) = true := by decide

/-- HO-7 -/
theorem test_load : hostWith (hostOp Config.font (.load [0xAB, 0xCD, 0xEF]) State.reset)
    (fun t _ => t.memRead 0x200 == 0xAB && t.memRead 0x202 == 0xEF && t.memRead 0x203 == 0 && t.pc == 0x200) = true := by
  decide

/-- HO-12 -/
theorem test_reset : hostOp Config.font .reset ((State.reset.setAwait (some 4)).setPc 7) = .next (State.reset, .done) := by
  simp only [hostOp, State.resetOp, State.resetWith_default]; rfl

/-- HO-12, memory; and R7's parameter: another font is read where RESET puts it. -/
theorem test_reset_font : State.reset.memRead 0x032 = 0xF0 ∧
    (State.resetWith (Config.font.set 50 0xAB)).memRead 0x032 = 0xAB :=
  ⟨by decide, (State.resetWith_memRead _ _).trans (by decide)⟩

/-! The witnesses. -/

/-- DR-4: either way, and one free value taken -/
theorem witness_keyNumberOver15_step : nextWith (run 0xE59E (regs [(5, 0x10)])) (fun t => t.draws == 1 && t.v[5] == 0x10) = true := by decide

/-- DS-3 -/
theorem witness_drwToggles_collision : nextWith (run 0xD001 (((State.reset.memWriteSeq 0x300 [0xC0]).setI 0x300).setFb ((Canvas.plot ⟨Framebuffer.unlit, false⟩ 1 0).fb))) (fun t => t.fb[0][0] && !t.fb[1][0] && t.v[15] == 1) = true := by decide

/-- CT-8 -/
theorem witness_callOverflow_step : nextWith (run 0x2300 (State.reset.setSp 16)) (fun t => t.pc == 0x202 && t.fault == some (.stackOverflow 0x200) && t.sp == 16) = true := by decide

theorem witness_decodeUndoesEncode : WellFormed (.sys 0x0E1) ∧ WellFormed (.drw 15 0 15) := by decide

theorem witness_encodeUndoesDecode : decode 0xDF0F = .ok (.drw 15 0 15) := by decide

/-- CLS and SYS accept the word 0x00E0, under different names. -/
theorem witness_onlyClassZeroRowsOverlap : ∃ a ∈ opcodeRows, ∃ b ∈ opcodeRows,
    a.accepts 0x00E0 = true ∧ b.accepts 0x00E0 = true ∧ a.mnemonic ≠ b.mnemonic :=
  ⟨⟨"CLS", "CLS", 0x00E0, 0xFFFF, fun _ => .cls⟩, by simp [opcodeRows, rowsControl],
    ⟨"SYS", "SYS nnn", 0x0000, 0xF000, fun w => .sys (fieldNnn w)⟩, by simp [opcodeRows, rowsControl],
    by decide, by decide, by decide⟩

/-- The reset state with a word at `PC`. -/
def withWord (w : Nat) : State := State.reset.withFetchWord 16 w

/-- The word that the next fetch of `s` reads. -/
def nextWord (s : State) : Word := s.memRead s.pc ++ s.memRead (s.pc + 1)

theorem witness_stepRunsTheDecodedInstruction :
    (withWord 0x6A2F).Running ∧ decode (nextWord (withWord 0x6A2F)) = .ok (.ldImm 10 0x2F) := by decide

theorem witness_stepTakesTheDecodeError :
    (withWord 0x5121).Running ∧ decode (nextWord (withWord 0x5121)) = .error (.unassigned 0x5121) := by decide

theorem witness_faultedAndWaitingStepsChangeNothing :
    (State.reset.setFault (some (.stackOverflow 0x200))).fault = some (.stackOverflow 0x200) ∧
    (State.reset.setAwait (some 15)).fault = none ∧ (State.reset.setAwait (some 15)).await = some 15 := by decide

/-- R106's rows for CALL with 15 and 16 entries and for RET with 16 and with none. -/
theorem witness_pcAfterEveryInstruction :
    ([15, 16].all fun k => let s := (withWord 0x2ABC).setSp k
      decide (s.Running ∧ s.SpLegal ∧ decode (nextWord s) = .ok (.call 0xABC))) = true ∧
    ([0, 16].all fun k => let s := (withWord 0x00EE).setSp k
      decide (s.Running ∧ s.SpLegal ∧ decode (nextWord s) = .ok .ret)) = true := by decide

/-- CALL with the first and the last free entry, and with a full stack. -/
theorem witness_callPushesOrRaises :
    State.reset.sp.toNat = (0 : Fin 16).val ∧ (State.reset.setSp 15).sp.toNat = (15 : Fin 16).val ∧
    16 ≤ (State.reset.setSp 16).sp.toNat := by decide

theorem witness_callOverflowWritesNothing : 16 ≤ (State.reset.setSp 16).sp.toNat := by decide

/-- RET on an empty stack, with one entry and with all sixteen. -/
theorem witness_retPopsOrDoesNothing :
    State.reset.sp = 0 ∧ (State.reset.setSp 1).sp.toNat = (0 : Fin 16).val + 1 ∧
    (State.reset.setSp 16).sp.toNat = (15 : Fin 16).val + 1 := by decide

theorem witness_retWithIllegalSpStops : 16 < (State.reset.setSp 17).sp.toNat := by decide

/-- Sixteen targets from an empty stack, and none from a full one. -/
theorem witness_callsAndReturnsBalance :
    State.reset.sp = 0 ∧ State.reset.sp.toNat + (List.replicate 16 (0x300 : Addr12)).length ≤ 16 ∧
    (List.replicate 16 (0x300 : Addr12)).length = 16 ∧
    (State.reset.setSp 16).sp.toNat + ([] : List Addr12).length ≤ 16 := by decide

theorem witness_keySkipsReadTheKey : ((regs [(5, 0)]).v[(5 : Reg)]).toNat = (0 : Fin 16).val ∧
    ((regs [(5, 15)]).v[(5 : Reg)]).toNat = (15 : Fin 16).val := by decide

theorem witness_keyNumberOver15SkipsEitherWay : 15 < ((regs [(5, 16)]).v[(5 : Reg)]).toNat := by decide

theorem witness_addAndSubtractSetTheFlag : (14 : Reg) ≠ VF ∧ (0 : Reg) ≠ VF := by decide

theorem witness_shiftsMoveOneBitIntoTheFlag : (14 : Reg) ≠ VF ∧ (0 : Reg) ≠ VF := by decide

theorem witness_vfAsDestinationAndFlagIsFree :
    Instr.shl VF 0 ∈ [Instr.addReg VF 0, .sub VF 0, .shr VF 0, .subn VF 0, .shl VF 0] := by decide

/-- DRW with no row (N16) and with fifteen: both plot, or nothing. -/
theorem witness_drwTogglesThePlottedPixels :
    nextWith (execDrw 0 1 0 (regs [(15, 1)])) (fun t => t.v[15] == 0 && t.fb == Framebuffer.unlit) = true ∧
    nextWith (execDrw 0 1 15 State.reset) (fun t => t.v[15] == 0 && t.fb[0][0]) = true := by decide

theorem witness_drawingTwiceRestores :
    ∃ t, exec (.drw 0 1 2) State.reset = .next t ∧ ∃ u : State, u.fb = t.fb ∧ u.v[(0 : Reg)] = State.reset.v[(0 : Reg)] ∧
      u.v[(1 : Reg)] = State.reset.v[(1 : Reg)] ∧ u.i = State.reset.i ∧ SameMemory State.reset u :=
  ⟨_, rfl, State.reset.setFb _, rfl, rfl, rfl, rfl, fun _ => rfl⟩

/-- The row 0xFF drawn twice at (0, 0) over a framebuffer, and the two flags. -/
def drawTwice (f : Framebuffer) (p : State → State → Bool) : Bool :=
  nextWith (execDrw 0 1 1 (((State.reset.memWrite 0x300 0xFF).setI 0x300).setFb f)) fun t =>
    nextWith (execDrw 0 1 1 t) (p t)

/-- The framebuffer whose only lit pixels are the first `m` of row 0. -/
def litRow (m : Nat) : Framebuffer :=
  ((List.range m).foldl (fun (k : Canvas) c => k.plot (Fin.ofNat 64 c) 0) ⟨Framebuffer.unlit, false⟩).fb

/-- L1-6, cases a and b: with no pixel of the sprite lit before, and with one, the second draw restores and reports. -/
theorem witness_drawingTwice_reports :
    drawTwice (litRow 0) (fun t w => t.v[15] == 0 && w.v[15] == 1 && w.fb == litRow 0) = true ∧
    drawTwice (litRow 1) (fun t w => t.v[15] == 1 && w.v[15] == 1 && w.fb == litRow 1) = true := by decide

/-- R201 by hand with all eight pixels lit before: the first draw unlights them, the second finds none lit (log 33). -/
theorem witness_drawingTwice_all_lit :
    drawTwice (litRow 8) (fun t w => t.v[15] == 1 && !t.fb[7][0] && w.v[15] == 0 && w.fb == litRow 8) = true := by decide

/-- The byte drawn from address 0, the font's first, is not 0, and the first draw on a clear screen reports nothing. -/
theorem witness_secondDrawReportsAfterAFirstWithout :
    nextWith (execDrw 0 1 1 State.reset) (fun t => t.v[15] == 0) = true ∧
    (0 : Nat) < 1 ∧ State.reset.memRead (State.reset.i + BitVec.ofNat 16 0) ≠ 0 := by decide

theorem witness_storedRegistersLoadBack :
    ∃ t, exec (.stRegs 15) (State.reset.setI 0xFFF) = .next t ∧ ∃ u : State, u.i = (State.reset.setI 0xFFF).i ∧
      SameMemory t u :=
  ⟨_, rfl, (State.reset.setI 0xFFF).memWriteSeq 0xFFF ((State.reset.setI 0xFFF).regsUpTo 15), rfl, fun _ => rfl⟩

/-- The last register that is stored, and the first above the range. -/
theorem witness_storeAndLoadRegisters : (7 : Reg) ≤ 7 ∧ (7 : Reg) < 8 := by decide

/-- A press that ends a wait; a press of a held key and a release, which do not. -/
theorem witness_setKeyDrivesTheKeyAndEndsTheWait :
    (State.reset.setAwait (some 15)).await = some 15 ∧ (State.reset.setAwait (some 15)).key[(0 : Fin 16)] = false ∧
    ((State.reset.setAwait (some 15)).setKeyBit 15 true).key[(15 : Fin 16)] = true ∧ State.reset.await = none := by decide

/-- The longest image LOAD takes and the shortest it refuses; the last cell before the image. -/
theorem witness_loadCopiesTheImage :
    (List.replicate 0xE00 (0 : Byte)).length ≤ 0xE00 ∧ 0xE00 < (List.replicate 0xE01 (0 : Byte)).length ∧
    (0x1FF : Word).toNat % 4096 < 0x200 := by
  simp only [List.length_replicate]; decide

/-- The last byte of the font, the first byte after it and the last byte of memory. -/
theorem witness_resetLeavesTheResetValues :
    (79 : Nat) < 80 ∧ 80 ≤ (80 : Word).toNat ∧ (80 : Word).toNat < 4096 ∧ (4095 : Word).toNat < 4096 := by decide

/-- An instruction, the sixteenth CALL, the seventeenth, and a word that decodes to nothing. -/
theorem witness_stepRepliesOkOrTheFault :
    hostWith (hostOp Config.font .step (withWord 0x6A2F)) (fun _ a => a == .ok) = true ∧
    (let s := (withWord 0x2300).setSp 15;
      s.Running ∧ s.SpLegal ∧ decode (nextWord s) = .ok (.call 0x300) ∧ s.sp.toNat < 16) ∧
    (let s := (withWord 0x2300).setSp 16;
      s.Running ∧ s.SpLegal ∧ decode (nextWord s) = .ok (.call 0x300) ∧ s.sp.toNat = 16) ∧
    decode (nextWord (withWord 0x5121)) = .error (.unassigned 0x5121) := by decide

/-- A state that meets the invariant with a fault recorded: `DecodeError`, and `StackOverflow` on a full stack. -/
theorem inv_faulted : (((State.reset.setPc 0x202).setFault (some (.decodeError 0x5121 0x200)))).Inv :=
  ⟨by decide, by decide, .inr rfl, by decide, by decide⟩

theorem inv_overflowed : (((State.reset.setSp 16).setPc 0x202).setFault (some (.stackOverflow 0x200))).Inv :=
  ⟨by decide, by decide, .inr rfl, by decide, by decide⟩

/-- The invariant holds and STEP answers: an instruction, a decode error, an overflow, a hold. -/
theorem witness_stepKeepsTheInvariant :
    ([withWord 0x6A2F, withWord 0x5121, (withWord 0x2300).setSp 16, State.reset.setAwait (some 3)].all fun s =>
      decide (Memory.wf s.mem = true ∧ s.SpLegal ∧ (s.fault = none ∨ s.await = none) ∧ s.fault = none) &&
        nextWith (step s) (fun _ => true)) = true := by decide

theorem reset_inv : State.reset.Inv := ⟨by decide, by decide, .inl rfl, trivial⟩

theorem witness_everyScheduleKeepsTheInvariant :
    State.reset.Inv ∧ nextWith (hostRun Config.font [.load [0x60, 0x05], .step, .setKey 3 true, .tick, .read] State.reset)
      (fun _ => true) = true :=
  ⟨reset_inv, by decide⟩

theorem witness_stepAnswersUnlessAlreadyFaulted :
    State.reset.Inv ∧ State.reset.fault = none ∧
    (((State.reset.setPc 0x202).setFault (some (.decodeError 0x5121 0x200)))).fault = some (.decodeError 0x5121 0x200) :=
  ⟨reset_inv, rfl, rfl⟩

theorem witness_everyInstructionCompletes : (State.reset.setSp 16).SpLegal := by decide

theorem witness_instructionsWriteOnlyTheirRegisters :
    exec (.ldRegs 3) State.reset = .next (State.reset.setRegs (State.reset.regsFrom State.reset.i 3)) ∧
    (4 : Reg) ∉ regsWritten (.ldRegs 3) := ⟨rfl, by decide⟩

theorem witness_specialRegistersHaveOnlyTheirWriters :
    exec (.jp 0x300) State.reset = .next (State.reset.setPc 0x300) ∧ Instr.jp 0x300 ≠ .ret ∧
    ∀ x, Instr.jp 0x300 ≠ .addI x := ⟨rfl, by decide, by decide⟩

theorem witness_memoryAndDevicesHaveOnlyTheirWriters :
    exec (.jp 0x300) State.reset = .next (State.reset.setPc 0x300) ∧ Instr.jp 0x300 ≠ .cls ∧
    ∀ x, Instr.jp 0x300 ≠ .stRegs x := ⟨rfl, by decide, by decide⟩

theorem witness_onlyCallRaisesAFault :
    exec (.call 0x300) (State.reset.setSp 16) =
      .next ((State.reset.setSp 16).raiseFault (.stackOverflow (State.reset.setSp 16).fetchAddr)) ∧
    ((State.reset.setSp 16).raiseFault (.stackOverflow 0)).fault ≠ (State.reset.setSp 16).fault := ⟨rfl, by decide⟩

theorem witness_faultLastsUntilReset :
    HostOp.reset ∉ [HostOp.step, .setKey 3 true, .tick, .load [1], .read] ∧
    nextWith (hostRun Config.font [.step, .setKey 3 true, .tick, .load [1], .read]
      ((State.reset.setPc 0x202).setFault (some (.decodeError 0x5121 0x200)))) (fun _ => true) = true := by decide

theorem witness_waitLastsUntilAPress :
    (State.reset.setAwait (some 3)).fault = none ∧ (State.reset.setAwait (some 3)).await = some 3 ∧
    HostOp.reset ∉ [HostOp.step, .setKey 3 false, .tick, .read] ∧
    (∀ k, HostOp.setKey k true ∉ [HostOp.step, .setKey 3 false, .tick, .read]) ∧
    nextWith (hostRun Config.font [.step, .setKey 3 false, .tick, .read] (State.reset.setAwait (some 3))) (fun _ => true) = true := by
  decide

end Sys2Proof.Machine.Test
end

/-! The classes that check their low bits (spec 30_encoding.md R76, R77). The top nibble leaves a few rows of the table; each
of these then compares the low nibble, or the low byte, with its own. -/

section
namespace Sys2Proof

/-- The class that a row's words have (30_encoding.md R70). -/
def Row.classOf (r : Row) : BitVec 4 := r.pat.extractLsb' 12 4

/-- The rows of one class, in the order of 30_encoding.md R74. -/
def rowsOfClass (c : BitVec 4) : List Row := opcodeRows.filter fun r => r.classOf == c

/-- Every row fixes the class nibble. -/
theorem mask_fixes_class : ∀ r ∈ opcodeRows, r.mask.extractLsb' 12 4 = 15#4 := by decide

theorem classOf_of_accepts {r : Row} (hr : r ∈ opcodeRows) {c : BitVec 4} {nnn : Addr12}
    (h : r.accepts (wordNnn c nnn) = true) : r.classOf = c := by
  rw [Row.accepts, accepts_wordNnn, mask_fixes_class r hr, and_fullNibble, Bool.and_eq_true, beq_iff_eq] at h
  exact h.1.symm

theorem decodeWith_nil (w : Word) : decodeWith [] w = .error (.unassigned w) := rfl

/-- Rows that do not accept a word may be left out. -/
theorem decodeWith_filter (p : Row → Bool) (w : Word) (rows : List Row)
    (h : ∀ r ∈ rows, r.accepts w = true → p r = true) : decodeWith (rows.filter p) w = decodeWith rows w := by
  induction rows with
  | nil => rfl
  | cons r rest ih =>
    have ih := ih fun q hq => h q (List.mem_cons_of_mem r hq)
    by_cases hp : p r = true
    · rw [List.filter_cons_of_pos hp, decodeWith, decodeWith, ih]
    · have hr : ¬ r.accepts w = true := fun ha => hp (h r List.mem_cons_self ha)
      rw [List.filter_cons_of_neg hp, decodeWith, if_neg hr, ih]

/-- Only the rows of its class decide what a word decodes to. -/
theorem decode_wordNnn (c : BitVec 4) (nnn : Addr12) :
    decode (wordNnn c nnn) = decodeWith (rowsOfClass c) (wordNnn c nnn) :=
  (decodeWith_filter _ _ _ fun _ hr ha => beq_iff_eq.mpr (classOf_of_accepts hr ha)).symm

theorem decode_wordXKk (c : BitVec 4) (x : Reg) (kk : Byte) :
    decode (wordXKk c x kk) = decodeWith (rowsOfClass c) (wordXKk c x kk) := decode_wordNnn c _

theorem decode_wordXYN (c : BitVec 4) (x y : Reg) (n : BitVec 4) :
    decode (wordXYN c x y n) = decodeWith (rowsOfClass c) (wordXYN c x y n) := decode_wordNnn c _

/-- A row that fixes the class and the low byte takes the words of its class that have this low byte. -/
theorem decodeWith_byteRow {c : BitVec 4} {r : Row} (hmask : r.mask = 0xF0FF)
    (hpat : r.pat = wordXKk c 0 (r.pat.extractLsb' 0 8)) (rest : List Row) (x : Reg) (kk : Byte) :
    decodeWith (r :: rest) (wordXKk c x kk) =
      if kk = r.pat.extractLsb' 0 8 then .ok (r.build (wordXKk c x kk)) else decodeWith rest (wordXKk c x kk) := by
  have hfixed : wordXKk c x kk &&& 0xF0FF = wordXKk c 0 kk := beq_iff_eq.mp (Laws.OwnRow.accepts_byteRow c x kk)
  have hacc : wordXKk c 0 kk = r.pat ↔ kk = r.pat.extractLsb' 0 8 :=
    ⟨fun h => h ▸ (fieldKk_word c 0 kk).symm, fun h => h ▸ hpat.symm⟩
  simp only [decodeWith, Row.accepts, hmask, hfixed, beq_iff_eq, hacc]

/-- A row that fixes the class and the low nibble takes the words of its class that have this low nibble. -/
theorem decodeWith_nibbleRow {c : BitVec 4} {r : Row} (hmask : r.mask = 0xF00F)
    (hpat : r.pat = wordXYN c 0 0 (r.pat.extractLsb' 0 4)) (rest : List Row) (x y : Reg) (n : BitVec 4) :
    decodeWith (r :: rest) (wordXYN c x y n) =
      if n = r.pat.extractLsb' 0 4 then .ok (r.build (wordXYN c x y n)) else decodeWith rest (wordXYN c x y n) := by
  have hfixed : wordXYN c x y n &&& 0xF00F = wordXYN c 0 0 n := beq_iff_eq.mp (Laws.OwnRow.accepts_nibble c x y n)
  have hacc : wordXYN c 0 0 n = r.pat ↔ n = r.pat.extractLsb' 0 4 :=
    ⟨fun h => h ▸ (congrArg toNibble (fieldN_word c 0 0 n)).symm, fun h => h ▸ hpat.symm⟩
  simp only [decodeWith, Row.accepts, hmask, hfixed, beq_iff_eq, hacc]

/-! The rows of each checked class, by their place in the table. -/

theorem rowsOfClass_5 : rowsOfClass 0x5 = [rowsControl[7]] := rfl
theorem rowsOfClass_8 : rowsOfClass 0x8 = rowsAlu.take 9 := rfl
theorem rowsOfClass_9 : rowsOfClass 0x9 = rowsAlu.drop 9 := rfl
theorem rowsOfClass_E : rowsOfClass 0xE = rowsMisc.drop 4 := rfl
theorem rowsOfClass_F : rowsOfClass 0xF = rowsTimerMemory := rfl

/-- Settles O5: the rows of the word's class compare its low bits one after another, in the order of the chain of `if`s. -/
theorem checkedClassesDecodeInFull : Obligations.CheckedClassesDecodeInFull := by
  unfold Obligations.CheckedClassesDecodeInFull
  refine ⟨fun x y n => ⟨?class5, ?class9, ?class8⟩, fun x kk => ⟨?classE, ?classF⟩⟩
  case class5 =>
    rw [decode_wordXYN, rowsOfClass_5]
    simp (disch := decide) [rowsControl, decodeWith_nibbleRow, decodeWith_nil]
  case class9 =>
    rw [decode_wordXYN, rowsOfClass_9]
    simp (disch := decide) [rowsAlu, decodeWith_nibbleRow, decodeWith_nil]
  case class8 =>
    rw [decode_wordXYN, rowsOfClass_8]
    simp (disch := decide) [rowsAlu, decodeWith_nibbleRow, decodeWith_nil]
  case classE =>
    rw [decode_wordXKk, rowsOfClass_E]
    simp (disch := decide) [rowsMisc, decodeWith_byteRow, decodeWith_nil]
  case classF =>
    rw [decode_wordXKk, rowsOfClass_F]
    simp (disch := decide) [rowsTimerMemory, decodeWith_byteRow, decodeWith_nil]

end Sys2Proof
end

/-! RET (spec 41_control_transfer.md R124): the no-op on an empty stack, and the pop from a stack that holds `j + 1` entries. -/

section
namespace Sys2Proof.Machine

theorem exec_ret (s : State) : exec .ret s = execRet s := rfl

theorem execRet_empty (s : State) (h : s.sp = 0) : execRet s = .next s := if_pos h

theorem execRet_pop (s : State) (j : Fin 16) (h : s.sp.toNat = j.val + 1) :
    execRet s = .next ((s.setSp (s.sp - 1)).setPc s.stack[j]) := by
  obtain ⟨hempty, -⟩ | ⟨-, _, hpop⟩ | ⟨hover, -⟩ := execRet_cases s
  · simp [hempty] at h
  · simpa [h] using hpop
  · omega

/-- An `SP` over 0 decrements without a borrow. -/
theorem toNat_sub_one_of_toNat_eq_succ {b : Byte} {n : Nat} (h : b.toNat = n + 1) : (b - 1).toNat = n := by
  bv_omega

/-- Settles O15: the empty stack is RET's first case; with `j + 1` entries RET writes `SP` and `PC` and nothing else. -/
theorem retPopsOrDoesNothing : Obligations.RetPopsOrDoesNothing := by
  unfold Obligations.RetPopsOrDoesNothing
  refine ⟨by decide, fun s => ⟨fun hempty => ?empty, fun j hsp => ?pop⟩⟩
  case empty => rw [exec_ret, execRet_empty s hempty]
  case pop =>
    have hsp' : (s.sp - 1).toNat = j.val := toNat_sub_one_of_toNat_eq_succ hsp
    have hmem : SameMemory s ((s.setSp (s.sp - 1)).setPc s.stack[j]) := .of_mem rfl
    rw [exec_ret, execRet_pop s j hsp]
    exact ⟨_, rfl, hsp', rfl, rfl, rfl, rfl, ⟨rfl, rfl⟩, hmem, ⟨rfl, rfl⟩, ⟨rfl, rfl⟩, rfl⟩

end Sys2Proof.Machine
end

/-! The comparing skips (spec 42_skips.md R140 to R143). SE and SNE with a literal are classes of one row that checks no low bit
(30_encoding.md R78); SE and SNE of two registers are the classes 5 and 9 of `checkedClassesDecodeInFull`. -/

section
namespace Sys2Proof

/-- A row that fixes the class alone takes every word of its class. -/
theorem decodeWith_classRow {c : BitVec 4} {r : Row} (hmask : r.mask = 0xF000) (hpat : r.pat = wordNnn c 0)
    (rest : List Row) (nnn : Addr12) :
    decodeWith (r :: rest) (wordNnn c nnn) = .ok (r.build (wordNnn c nnn)) := by
  have hacc : r.accepts (wordNnn c nnn) = true := by
    rw [Row.accepts, hmask, hpat]
    exact Laws.OwnRow.accepts_class c nnn
  rw [decodeWith, if_pos hacc]

theorem rowsOfClass_3 : rowsOfClass 0x3 = [rowsControl[5]] := rfl
theorem rowsOfClass_4 : rowsOfClass 0x4 = [rowsControl[6]] := rfl

theorem decode_seImm (x : Reg) (kk : Byte) : decode (wordXKk 0x3 x kk) = .ok (.seImm x kk) := by
  have hfields : rowsControl[5].build (wordXKk 0x3 x kk) = .seImm x kk :=
    congrArg₂ Instr.seImm (fieldX_word 0x3 x kk) (fieldKk_word 0x3 x kk)
  rw [decode_wordXKk, rowsOfClass_3]
  exact (decodeWith_classRow rfl rfl [] _).trans (congrArg Except.ok hfields)

theorem decode_sneImm (x : Reg) (kk : Byte) : decode (wordXKk 0x4 x kk) = .ok (.sneImm x kk) := by
  have hfields : rowsControl[6].build (wordXKk 0x4 x kk) = .sneImm x kk :=
    congrArg₂ Instr.sneImm (fieldX_word 0x4 x kk) (fieldKk_word 0x4 x kk)
  rw [decode_wordXKk, rowsOfClass_4]
  exact (decodeWith_classRow rfl rfl [] _).trans (congrArg Except.ok hfields)

end Sys2Proof

namespace Sys2Proof.Machine

section
variable (s : State) (x y : Reg) (kk a b : Byte)

theorem exec_seImm : exec (.seImm x kk) s = .next (s.skipIf (s.v[x] == kk)) := rfl
theorem exec_sneImm : exec (.sneImm x kk) s = .next (s.skipIf (s.v[x] != kk)) := rfl
theorem exec_seReg : exec (.seReg x y) s = .next (s.skipIf (s.v[x] == s.v[y])) := rfl
theorem exec_sneReg : exec (.sneReg x y) s = .next (s.skipIf (s.v[x] != s.v[y])) := rfl

/-- The skip of SE. -/
theorem State.skipIf_beq_pc : (s.skipIf (a == b)).pc = if a = b then s.pc + 2 else s.pc := by
  simp only [State.skipIf_pc, beq_iff_eq]

/-- The skip of SNE. -/
theorem State.skipIf_bne_pc : (s.skipIf (a != b)).pc = if a = b then s.pc else s.pc + 2 := by
  simp only [State.skipIf_pc, bne_iff_ne, ite_not, ne_eq]

end

/-- Settles O19: each skip is `skipIf` on its comparison, which writes `PC` and nothing else; the rejected words are those that
the classes 5 and 9 reject. -/
theorem comparingSkipsAddTwo : Obligations.ComparingSkipsAddTwo := by
  unfold Obligations.ComparingSkipsAddTwo
  intro x y kk
  have hlow (n : BitVec 4) := checkedClassesDecodeInFull.1 x y n
  refine ⟨decode_seImm x kk, decode_sneImm x kk, (hlow 0).1, (hlow 0).2.1, fun n hn => ?rejected,
    fun s => ⟨?seImm, ?sneImm, ?seReg, ?sneReg⟩⟩
  case rejected =>
    obtain ⟨h5, h9, -⟩ := hlow n
    rw [if_neg hn] at h5 h9
    exact ⟨h5, h9⟩
  case seImm => exact ⟨_, exec_seImm s x kk, s.skipIf_beq_pc _ _, s.skipIf_frame _⟩
  case sneImm => exact ⟨_, exec_sneImm s x kk, s.skipIf_bne_pc _ _, s.skipIf_frame _⟩
  case seReg => exact ⟨_, exec_seReg s x y, s.skipIf_beq_pc _ _, s.skipIf_frame _⟩
  case sneReg => exact ⟨_, exec_sneReg s x y, s.skipIf_bne_pc _ _, s.skipIf_frame _⟩

end Sys2Proof.Machine
end

/-! Loads, the addition of a literal and the bitwise operations (spec 43_load_alu.md R160 to R165): each one writes its result to
`V[x]` and nothing else, so `State.setReg_frame` is their frame. The literal's classes are rows that check no low bit
(30_encoding.md R78); the others are rows of class 8 of `checkedClassesDecodeInFull`. -/

section
namespace Sys2Proof

/-- Where a class has a row that fixes the class alone and comes first, that row decodes the class. -/
theorem decode_of_classRow {c : BitVec 4} {r : Row} {rest : List Row} (hrows : rowsOfClass c = r :: rest)
    (hmask : r.mask = 0xF000) (hpat : r.pat = wordNnn c 0) (nnn : Addr12) :
    decode (wordNnn c nnn) = .ok (r.build (wordNnn c nnn)) := by
  rw [decode_wordNnn, hrows, decodeWith_classRow hmask hpat]

theorem rowsOfClass_6 : rowsOfClass 0x6 = [rowsControl[8]] := rfl
theorem rowsOfClass_7 : rowsOfClass 0x7 = [rowsControl[9]] := rfl

theorem decode_ldImm (x : Reg) (kk : Byte) : decode (wordXKk 0x6 x kk) = .ok (.ldImm x kk) := by
  have hfields : rowsControl[8].build (wordXKk 0x6 x kk) = .ldImm x kk :=
    congrArg₂ Instr.ldImm (fieldX_word 0x6 x kk) (fieldKk_word 0x6 x kk)
  exact (decode_of_classRow rowsOfClass_6 rfl rfl _).trans (congrArg Except.ok hfields)

theorem decode_addImm (x : Reg) (kk : Byte) : decode (wordXKk 0x7 x kk) = .ok (.addImm x kk) := by
  have hfields : rowsControl[9].build (wordXKk 0x7 x kk) = .addImm x kk :=
    congrArg₂ Instr.addImm (fieldX_word 0x7 x kk) (fieldKk_word 0x7 x kk)
  exact (decode_of_classRow rowsOfClass_7 rfl rfl _).trans (congrArg Except.ok hfields)

end Sys2Proof

namespace Sys2Proof.Machine

section
variable (s : State) (x y : Reg) (kk : Byte)

theorem exec_ldImm : exec (.ldImm x kk) s = .next (s.setReg x kk) := rfl
theorem exec_ldReg : exec (.ldReg x y) s = .next (s.setReg x s.v[y]) := rfl
theorem exec_addImm : exec (.addImm x kk) s = .next (s.setReg x (addBytes s.v[x] kk)) := rfl
theorem exec_or : exec (.or x y) s = .next (s.setReg x (s.v[x] ||| s.v[y])) := rfl
theorem exec_and : exec (.and x y) s = .next (s.setReg x (s.v[x] &&& s.v[y])) := rfl
theorem exec_xor : exec (.xor x y) s = .next (s.setReg x (s.v[x] ^^^ s.v[y])) := rfl

/-- The frame of a register write, the written byte given by its bits. -/
theorem State.setReg_frame_of_bits {b : Byte} {bit : Nat → Bool} (hbit : ∀ j < 8, b.getLsbD j = bit j) :
    (∀ j < 8, ((s.setReg x b).v[x]).getLsbD j = bit j) ∧ SameRegsBut [x] s (s.setReg x b) ∧
      SameBeyondRegs s (s.setReg x b) ∧ NoDraw s (s.setReg x b) := by
  obtain ⟨hval, hframe⟩ := s.setReg_frame x b
  exact ⟨hval.symm ▸ hbit, hframe⟩

end

/-- Settles O22: both loads are a register write, of the literal or of the old `V[y]`. -/
theorem loadsCopyIntoTheRegister : Obligations.LoadsCopyIntoTheRegister := by
  unfold Obligations.LoadsCopyIntoTheRegister
  intro x y kk
  obtain ⟨-, -, hldReg⟩ := checkedClassesDecodeInFull.1 x y 0x0
  refine ⟨decode_ldImm x kk, hldReg, fun s => ⟨?ldImm, ?ldReg⟩⟩
  case ldImm => exact ⟨_, exec_ldImm s x kk, s.setReg_frame x kk⟩
  case ldReg => exact ⟨_, exec_ldReg s x y, s.setReg_frame x s.v[y]⟩

/-- Settles O23: the written byte is the exact sum narrowed to 8 bits, and `VF` is a register like the others. -/
theorem addLiteralWrapsWithoutFlag : Obligations.AddLiteralWrapsWithoutFlag := by
  unfold Obligations.AddLiteralWrapsWithoutFlag
  refine fun x kk => ⟨decode_addImm x kk, fun s => ?_⟩
  obtain ⟨hval, hframe⟩ := s.setReg_frame x (addBytes s.v[x] kk)
  have hsum : ((s.setReg x (addBytes s.v[x] kk)).v[x]).toNat = ((s.v[x]).toNat + kk.toNat) % 256 := by
    rw [hval, addBytes_eq, BitVec.toNat_add]
  exact ⟨_, exec_addImm s x kk, hsum, hframe⟩

/-- Settles O24: each operation is a register write of a bitwise result, whose bits the library gives. -/
theorem bitwiseOpsActBitByBit : Obligations.BitwiseOpsActBitByBit := by
  unfold Obligations.BitwiseOpsActBitByBit
  intro x y
  obtain ⟨-, -, hor⟩ := checkedClassesDecodeInFull.1 x y 0x1
  obtain ⟨-, -, hand⟩ := checkedClassesDecodeInFull.1 x y 0x2
  obtain ⟨-, -, hxor⟩ := checkedClassesDecodeInFull.1 x y 0x3
  refine ⟨hor, hand, hxor, fun s => ⟨?or, ?and, ?xor⟩⟩
  case or => exact ⟨_, exec_or s x y, s.setReg_frame_of_bits x fun _ _ => BitVec.getLsbD_or⟩
  case and => exact ⟨_, exec_and s x y, s.setReg_frame_of_bits x fun _ _ => BitVec.getLsbD_and⟩
  case xor => exact ⟨_, exec_xor s x y, s.setReg_frame_of_bits x fun _ _ => BitVec.getLsbD_xor⟩

end Sys2Proof.Machine
end

/-! CLS (spec 45_display.md R200): it writes the framebuffer and nothing else. -/

section
namespace Sys2Proof.Machine

theorem exec_cls (s : State) : exec .cls s = .next (s.setFb Framebuffer.unlit) := rfl

theorem Framebuffer.unlit_get (c : Fin 64) (r : Fin 32) : Framebuffer.unlit[c][r] = false := by
  simp [Framebuffer.unlit]

/-- Settles O29: CLS answers its state with `Framebuffer.unlit`, every cell of which is unlit, as its framebuffer. -/
theorem clsClearsEveryCell : Obligations.ClsClearsEveryCell := by
  unfold Obligations.ClsClearsEveryCell
  refine ⟨by decide, fun s => ?_⟩
  have hmem : SameMemory s (s.setFb Framebuffer.unlit) := .of_mem rfl
  exact ⟨_, exec_cls s, Framebuffer.unlit_get, rfl, rfl, rfl, rfl, ⟨rfl, rfl⟩, ⟨rfl, rfl⟩, hmem, ⟨rfl, rfl⟩, rfl⟩

end Sys2Proof.Machine
end

/-! Timer transfers, ADD I and LD B (spec 46_timer_memory.md R220 to R226): rows of class F of `checkedClassesDecodeInFull`. LD B
is a store of three bytes, so `State.memWriteSeq_read` and `State.memWriteSeq_frame` say what memory holds after it. -/

section
namespace Sys2Proof.Machine

section
variable (s : State) (x : Reg)

theorem exec_ldVxDt : exec (.ldVxDt x) s = .next (s.setReg x s.dt) := rfl
theorem exec_ldDtVx : exec (.ldDtVx x) s = .next (s.setDt s.v[x]) := rfl
theorem exec_ldStVx : exec (.ldStVx x) s = .next (s.setSt s.v[x]) := rfl
theorem exec_addI : exec (.addI x) s = .next (s.setI (addToI s.i s.v[x])) := rfl
theorem exec_ldB : exec (.ldB x) s = .next (s.memWriteSeq s.i (bcdDigits s.v[x])) := rfl

end

theorem addToI_toNat (w : Word) (b : Byte) : (addToI w b).toNat = (w.toNat + b.toNat) % 65536 := BitVec.toNat_ofNat _ _

/-- No digit is reduced: each is at most 9. -/
theorem bcdDigits_toNat (b : Byte) :
    (bcdDigits b).map BitVec.toNat = [b.toNat / 100, b.toNat / 10 % 10, b.toNat % 10] := by
  have hb := b.isLt
  have hhundreds : b.toNat / 100 < 2 ^ 8 := by omega
  have htens : b.toNat / 10 % 10 < 2 ^ 8 := by omega
  have hones : b.toNat % 10 < 2 ^ 8 := by omega
  simp only [bcdDigits, List.map_cons, List.map_nil, BitVec.toNat_ofNat, Nat.mod_eq_of_lt, hhundreds, htens, hones]

theorem bcdDigits_length_le (b : Byte) : (bcdDigits b).length ≤ 4096 := Nat.le_of_ble_eq_true rfl

/-- After the three digits of a byte are stored, digit `j` reads back at `base + j`. -/
theorem State.memWriteSeq_bcdDigits_read (s : State) (base : Word) (b : Byte) (j : Fin 3) :
    ((s.memWriteSeq base (bcdDigits b)).memRead (base + BitVec.ofNat 16 j)).toNat =
      [b.toNat / 100, b.toNat / 10 % 10, b.toNat % 10][j] := by
  have hj : j.val < (bcdDigits b).length := j.isLt
  calc ((s.memWriteSeq base (bcdDigits b)).memRead (base + BitVec.ofNat 16 j)).toNat
    _ = ((bcdDigits b)[j.val]).toNat := by rw [State.memWriteSeq_read s base _ (bcdDigits_length_le b) j hj]
    _ = ((bcdDigits b).map BitVec.toNat)[j.val]'(by rwa [List.length_map]) := (List.getElem_map BitVec.toNat).symm
    _ = [b.toNat / 100, b.toNat / 10 % 10, b.toNat % 10][j] := List.getElem_of_eq (bcdDigits_toNat b) _

/-- Settles O32: the transfer into a register is a register write of `DT`; the others write one timer, the register's old byte. -/
theorem timerTransfersCopy : Obligations.TimerTransfersCopy := by
  unfold Obligations.TimerTransfersCopy
  intro x
  have hclassF (kk : Byte) := (checkedClassesDecodeInFull.2 x kk).2
  refine ⟨hclassF 0x07, hclassF 0x15, hclassF 0x18, fun s => ⟨?ldVxDt, ?ldDtVx, ?ldStVx⟩⟩
  case ldVxDt => exact ⟨_, exec_ldVxDt s x, s.setReg_frame x s.dt⟩
  case ldDtVx =>
    have hmem : SameMemory s (s.setDt s.v[x]) := .of_mem rfl
    exact ⟨_, exec_ldDtVx s x, rfl, rfl, rfl, rfl, rfl, ⟨rfl, rfl⟩, hmem, ⟨rfl, rfl⟩, ⟨rfl, rfl⟩, rfl⟩
  case ldStVx =>
    have hmem : SameMemory s (s.setSt s.v[x]) := .of_mem rfl
    exact ⟨_, exec_ldStVx s x, rfl, rfl, rfl, rfl, rfl, ⟨rfl, rfl⟩, hmem, ⟨rfl, rfl⟩, ⟨rfl, rfl⟩, rfl⟩

/-- Settles O34: ADD I writes the exact sum, narrowed to 16 bits, to `I` and nothing else. -/
theorem addIWrapsWithoutFlag : Obligations.AddIWrapsWithoutFlag := by
  unfold Obligations.AddIWrapsWithoutFlag
  refine fun x => ⟨(checkedClassesDecodeInFull.2 x 0x1E).2, fun s => ?_⟩
  have hsum := addToI_toNat s.i s.v[x]
  have hmem : SameMemory s (s.setI (addToI s.i s.v[x])) := .of_mem rfl
  exact ⟨_, exec_addI s x, hsum, rfl, rfl, ⟨rfl, rfl⟩, ⟨rfl, rfl⟩, hmem, ⟨rfl, rfl⟩, ⟨rfl, rfl⟩, rfl⟩

/-- Settles O36: the three stored bytes read back as the digits, and a store changes no byte but those it stores. -/
theorem ldBStoresThreeDigits : Obligations.LdBStoresThreeDigits := by
  unfold Obligations.LdBStoresThreeDigits
  refine fun x => ⟨(checkedClassesDecodeInFull.2 x 0x33).2, fun s => ?_⟩
  have hdigit (j : Fin 3) := s.memWriteSeq_bcdDigits_read s.i s.v[x] j
  have hhundreds := hdigit 0
  rw [Fin.val_zero, BitVec.add_zero] at hhundreds
  have hmem : SameMemoryBut s.i 3 s (s.memWriteSeq s.i (bcdDigits s.v[x])) :=
    s.memWriteSeq_frame s.i _ (bcdDigits_length_le _)
  exact ⟨_, exec_ldB s x, hhundreds, hdigit 1, hdigit 2, hmem, rfl, rfl, rfl,
    ⟨rfl, rfl⟩, ⟨rfl, rfl⟩, ⟨rfl, rfl⟩, ⟨rfl, rfl⟩, rfl⟩

end Sys2Proof.Machine
end

/-! TICK (spec 60_exceptions.md R261): a timer at 0 stays there, any other decrements without a borrow. -/

section
namespace Sys2Proof.Machine

theorem hostOp_tick (font : Font) (s : State) : hostOp font .tick s = .next (s.tick, .done) := rfl

theorem tickTimer_zero : tickTimer 0 = 0 := rfl

theorem tickTimer_of_ne_zero {t : Byte} (h : t ≠ 0) : tickTimer t = t - 1 := if_neg h

/-- The subtraction on the right is that of `Nat`, which stops at 0. -/
theorem tickTimer_toNat (t : Byte) : (tickTimer t).toNat = t.toNat - 1 := by
  by_cases hzero : t = 0
  · subst hzero
    exact congrArg BitVec.toNat tickTimer_zero
  · rw [tickTimer_of_ne_zero hzero]
    bv_omega

/-- Settles O41: TICK writes the two timers and nothing else, in every state; each write is `tickTimer` of the old value. -/
theorem tickDecrementsTheTimers : Obligations.TickDecrementsTheTimers := by
  unfold Obligations.TickDecrementsTheTimers
  intro font s
  have hdt : s.tick.dt.toNat = s.dt.toNat - 1 := tickTimer_toNat s.dt
  have hst : s.tick.st.toNat = s.st.toNat - 1 := tickTimer_toNat s.st
  have hmem : SameMemory s s.tick := .of_mem rfl
  exact ⟨s.tick, hostOp_tick font s, hdt, hst, rfl, rfl, rfl, ⟨rfl, rfl⟩, hmem, ⟨rfl, rfl⟩, ⟨rfl, rfl⟩, rfl⟩

end Sys2Proof.Machine
end

/-! Decoding and encoding as inverses (spec 30_encoding.md R73 to R78). Every word is a class nibble before its fields, and the
full decoding of its class says what it is: an open class is one row that checks no low bit, class 0 tries CLS and RET before
SYS, and the others are `checkedClassesDecodeInFull`. -/

section
namespace Sys2Proof

theorem rowsOfClass_1 : rowsOfClass 0x1 = [rowsControl[3]] := rfl
theorem rowsOfClass_2 : rowsOfClass 0x2 = [rowsControl[4]] := rfl
theorem rowsOfClass_A : rowsOfClass 0xA = [rowsMisc[0]] := rfl
theorem rowsOfClass_B : rowsOfClass 0xB = [rowsMisc[1]] := rfl
theorem rowsOfClass_C : rowsOfClass 0xC = [rowsMisc[2]] := rfl
theorem rowsOfClass_D : rowsOfClass 0xD = [rowsMisc[3]] := rfl
theorem rowsOfClass_0 : rowsOfClass 0x0 = rowsControl.take 3 := rfl

/-- `decode_of_classRow` with the instruction that the row reads from the word's fields. -/
theorem decode_eq_of_classRow {c : BitVec 4} {r : Row} {rest : List Row} {nnn : Addr12} {i : Instr}
    (hrows : rowsOfClass c = r :: rest) (hmask : r.mask = 0xF000) (hpat : r.pat = wordNnn c 0)
    (hfields : r.build (wordNnn c nnn) = i) : decode (wordNnn c nnn) = .ok i := by
  rw [decode_of_classRow hrows hmask hpat, hfields]

theorem decode_jp (nnn : Addr12) : decode (wordNnn 0x1 nnn) = .ok (.jp nnn) :=
  decode_eq_of_classRow rowsOfClass_1 rfl rfl (congrArg Instr.jp (fieldNnn_word 0x1 nnn))

theorem decode_call (nnn : Addr12) : decode (wordNnn 0x2 nnn) = .ok (.call nnn) :=
  decode_eq_of_classRow rowsOfClass_2 rfl rfl (congrArg Instr.call (fieldNnn_word 0x2 nnn))

theorem decode_ldI (nnn : Addr12) : decode (wordNnn 0xA nnn) = .ok (.ldI nnn) :=
  decode_eq_of_classRow rowsOfClass_A rfl rfl (congrArg Instr.ldI (fieldNnn_word 0xA nnn))

theorem decode_jpV0 (nnn : Addr12) : decode (wordNnn 0xB nnn) = .ok (.jpV0 nnn) :=
  decode_eq_of_classRow rowsOfClass_B rfl rfl (congrArg Instr.jpV0 (fieldNnn_word 0xB nnn))

theorem decode_rnd (x : Reg) (kk : Byte) : decode (wordXKk 0xC x kk) = .ok (.rnd x kk) :=
  decode_eq_of_classRow rowsOfClass_C rfl rfl (congrArg₂ Instr.rnd (fieldX_word 0xC x kk) (fieldKk_word 0xC x kk))

theorem decode_drw (x y : Reg) (n : Fin 16) : decode (wordXYN 0xD x y (toNibble n)) = .ok (.drw x y n) :=
  decode_eq_of_classRow rowsOfClass_D rfl rfl
    (congr (congrArg₂ Instr.drw (fieldX_wordXYN 0xD x y _) (fieldY_word 0xD x y _)) (fieldN_word 0xD x y (toNibble n)))

/-- Settles O6: each of these classes is one row that fixes the class alone, and the row reads the word's operand fields. -/
theorem openClassesDecodeWhole : Obligations.OpenClassesDecodeWhole := by
  unfold Obligations.OpenClassesDecodeWhole
  refine ⟨fun nnn => ⟨decode_jp nnn, decode_call nnn, decode_ldI nnn, decode_jpV0 nnn⟩, fun x kk => ?_, decode_drw⟩
  exact ⟨decode_seImm x kk, decode_sneImm x kk, decode_ldImm x kk, decode_addImm x kk, decode_rnd x kk⟩

/-- A row that fixes every bit takes its own word alone. -/
theorem decodeWith_wordRow {c : BitVec 4} {r : Row} (hmask : r.mask = 0xFFFF)
    (hpat : r.pat = wordNnn c (r.pat.extractLsb' 0 12)) (rest : List Row) (nnn : Addr12) :
    decodeWith (r :: rest) (wordNnn c nnn) =
      if nnn = r.pat.extractLsb' 0 12 then .ok (r.build (wordNnn c nnn)) else decodeWith rest (wordNnn c nnn) := by
  have hfixed : wordNnn c nnn &&& 0xFFFF = wordNnn c nnn := BitVec.and_allOnes
  have hacc : wordNnn c nnn = r.pat ↔ nnn = r.pat.extractLsb' 0 12 :=
    ⟨fun h => h ▸ (fieldNnn_word c nnn).symm, fun h => h ▸ hpat.symm⟩
  simp only [decodeWith, Row.accepts, hmask, hfixed, beq_iff_eq, hacc]

/-- Settles O4: the rows of class 0 in their order, the two that fix every bit and then the one that fixes the class. -/
theorem classZeroDecodesInFull : Obligations.ClassZeroDecodesInFull := by
  unfold Obligations.ClassZeroDecodesInFull
  intro nnn
  rw [decode_wordNnn, rowsOfClass_0, apply_ite Except.ok, apply_ite Except.ok]
  simp (disch := decide) [rowsControl, decodeWith_wordRow, decodeWith_classRow]

theorem wellFormed_sys {nnn : Addr12} : WellFormed (.sys nnn) ↔ nnn ≠ 0x0E0 ∧ nnn ≠ 0x0EE := by
  simp [WellFormed, Instr.wellFormed]

/-- `decode` undoes `encode`: the word of each instruction decodes as its class says. -/
theorem decode_encode (i : Instr) (h : WellFormed i) : decode (encode i) = .ok i := by
  obtain ⟨hnibble, hbyte⟩ := checkedClassesDecodeInFull
  have hclass5 (x y : Reg) := (hnibble x y 0x0).1
  have hclass8 (x y : Reg) (n : BitVec 4) := (hnibble x y n).2.2
  have hclass9 (x y : Reg) := (hnibble x y 0x0).2.1
  have hclassE (x : Reg) (kk : Byte) := (hbyte x kk).1
  have hclassF (x : Reg) (kk : Byte) := (hbyte x kk).2
  cases i with
  | cls | ret => decide
  | sys nnn =>
    obtain ⟨hcls, hret⟩ : nnn ≠ 0x0E0 ∧ nnn ≠ 0x0EE := wellFormed_sys.mp h
    exact (classZeroDecodesInFull nnn).trans (by rw [if_neg hcls, if_neg hret])
  | jp nnn => exact decode_jp nnn
  | call nnn => exact decode_call nnn
  | seImm x kk => exact decode_seImm x kk
  | sneImm x kk => exact decode_sneImm x kk
  | seReg x y => exact hclass5 x y
  | ldImm x kk => exact decode_ldImm x kk
  | addImm x kk => exact decode_addImm x kk
  | ldReg x y => exact hclass8 x y 0x0
  | or x y => exact hclass8 x y 0x1
  | and x y => exact hclass8 x y 0x2
  | xor x y => exact hclass8 x y 0x3
  | addReg x y => exact hclass8 x y 0x4
  | sub x y => exact hclass8 x y 0x5
  | shr x y => exact hclass8 x y 0x6
  | subn x y => exact hclass8 x y 0x7
  | shl x y => exact hclass8 x y 0xE
  | sneReg x y => exact hclass9 x y
  | ldI nnn => exact decode_ldI nnn
  | jpV0 nnn => exact decode_jpV0 nnn
  | rnd x kk => exact decode_rnd x kk
  | drw x y n => exact decode_drw x y n
  | skp x => exact hclassE x 0x9E
  | sknp x => exact hclassE x 0xA1
  | ldVxDt x => exact hclassF x 0x07
  | ldVxK x => exact hclassF x 0x0A
  | ldDtVx x => exact hclassF x 0x15
  | ldStVx x => exact hclassF x 0x18
  | addI x => exact hclassF x 0x1E
  | ldF x => exact hclassF x 0x29
  | ldB x => exact hclassF x 0x33
  | stRegs x => exact hclassF x 0x55
  | ldRegs x => exact hclassF x 0x65

/-- The two bytes of a word at the head of a stream decode the word and leave the rest. -/
theorem decodeBytes_wordBytes_append {w : Word} {i : Instr} (h : decode w = .ok i) (rest : List Byte) :
    decodeBytes (wordBytes w ++ rest) = .ok (i, rest) := by
  simp only [wordBytes, List.cons_append, List.nil_append, decodeBytes, hiByte_append_loByte, h]

/-- Settles O2: the word decodes as its class says, and its two bytes make the word again. -/
theorem decodeUndoesEncode : Obligations.DecodeUndoesEncode := by
  unfold Obligations.DecodeUndoesEncode
  intro i hwf
  have hword := decode_encode i hwf
  exact ⟨hword, decodeBytes_wordBytes_append hword⟩

/-- `w` is the one word of whatever it decodes to. -/
def IsOwnEncoding (w : Word) : Prop := ∀ i, decode w = .ok i → encode i = w ∧ WellFormed i

theorem isOwnEncoding_of_decode_eq {w : Word} {i : Instr} (hdecode : decode w = .ok i) (hencode : encode i = w)
    (hwf : WellFormed i) : IsOwnEncoding w := by
  intro j hj
  obtain rfl : i = j := Except.ok.inj (hdecode.symm.trans hj)
  exact ⟨hencode, hwf⟩

/-- A decoding chain answers the instruction of its first condition, or what the rest of the chain answers. -/
theorem ite_ok_cases {p : Prop} [Decidable p] {a i : Instr} {e : Except DecodeReject Instr}
    (h : (if p then .ok a else e) = .ok i) : (p ∧ a = i) ∨ e = .ok i := by
  split at h
  · exact .inl ⟨‹p›, Except.ok.inj h⟩
  · exact .inr h

theorem isOwnEncoding_class0 (nnn : Addr12) : IsOwnEncoding (wordNnn 0x0 nnn) := by
  by_cases hcls : nnn = 0x0E0
  · subst hcls
    exact isOwnEncoding_of_decode_eq (i := .cls) (by decide) rfl rfl
  by_cases hret : nnn = 0x0EE
  · subst hret
    exact isOwnEncoding_of_decode_eq (i := .ret) (by decide) rfl rfl
  have hsys : decode (wordNnn 0x0 nnn) = .ok (.sys nnn) := by rw [classZeroDecodesInFull, if_neg hcls, if_neg hret]
  have hwf : WellFormed (.sys nnn) := wellFormed_sys.mpr ⟨hcls, hret⟩
  exact isOwnEncoding_of_decode_eq hsys rfl hwf

theorem isOwnEncoding_class5 (x y : Reg) (n : BitVec 4) : IsOwnEncoding (wordXYN 0x5 x y n) := by
  intro i h
  rw [(checkedClassesDecodeInFull.1 x y n).1] at h
  obtain ⟨rfl, rfl⟩ | h := ite_ok_cases h
  · exact ⟨rfl, rfl⟩
  · cases h

theorem isOwnEncoding_class9 (x y : Reg) (n : BitVec 4) : IsOwnEncoding (wordXYN 0x9 x y n) := by
  intro i h
  rw [(checkedClassesDecodeInFull.1 x y n).2.1] at h
  obtain ⟨rfl, rfl⟩ | h := ite_ok_cases h
  · exact ⟨rfl, rfl⟩
  · cases h

theorem isOwnEncoding_class8 (x y : Reg) (n : BitVec 4) : IsOwnEncoding (wordXYN 0x8 x y n) := by
  intro i h
  rw [(checkedClassesDecodeInFull.1 x y n).2.2] at h
  iterate 9
    obtain ⟨rfl, rfl⟩ | h := ite_ok_cases h
    · exact ⟨rfl, rfl⟩
  cases h

theorem isOwnEncoding_classE (x : Reg) (kk : Byte) : IsOwnEncoding (wordXKk 0xE x kk) := by
  intro i h
  rw [(checkedClassesDecodeInFull.2 x kk).1] at h
  iterate 2
    obtain ⟨rfl, rfl⟩ | h := ite_ok_cases h
    · exact ⟨rfl, rfl⟩
  cases h

theorem isOwnEncoding_classF (x : Reg) (kk : Byte) : IsOwnEncoding (wordXKk 0xF x kk) := by
  intro i h
  rw [(checkedClassesDecodeInFull.2 x kk).2] at h
  iterate 9
    obtain ⟨rfl, rfl⟩ | h := ite_ok_cases h
    · exact ⟨rfl, rfl⟩
  cases h

/-- The classes 0 to F in order, each in the format that its rows read. -/
theorem isOwnEncoding_word (c x y n : Fin 16) : IsOwnEncoding (wordXYN (toNibble c) x y (toNibble n)) := by
  let kk : Byte := toNibble y ++ toNibble n
  let nnn : Addr12 := toNibble x ++ kk
  fin_cases c
  exacts [isOwnEncoding_class0 nnn,
    isOwnEncoding_of_decode_eq (decode_jp nnn) rfl rfl,
    isOwnEncoding_of_decode_eq (decode_call nnn) rfl rfl,
    isOwnEncoding_of_decode_eq (decode_seImm x kk) rfl rfl,
    isOwnEncoding_of_decode_eq (decode_sneImm x kk) rfl rfl,
    isOwnEncoding_class5 x y (toNibble n),
    isOwnEncoding_of_decode_eq (decode_ldImm x kk) rfl rfl,
    isOwnEncoding_of_decode_eq (decode_addImm x kk) rfl rfl,
    isOwnEncoding_class8 x y (toNibble n),
    isOwnEncoding_class9 x y (toNibble n),
    isOwnEncoding_of_decode_eq (decode_ldI nnn) rfl rfl,
    isOwnEncoding_of_decode_eq (decode_jpV0 nnn) rfl rfl,
    isOwnEncoding_of_decode_eq (decode_rnd x kk) rfl rfl,
    isOwnEncoding_of_decode_eq (decode_drw x y n) rfl rfl,
    isOwnEncoding_classE x kk,
    isOwnEncoding_classF x kk]

/-- Every word is four nibbles (30_encoding.md R71). -/
theorem word_eq_wordXYN (w : Word) : ∃ c x y n : Fin 16, w = wordXYN (toNibble c) x y (toNibble n) := by
  obtain ⟨x, kk, hnnn⟩ := addr_eq_append (fieldNnn w)
  obtain ⟨y, n, rfl⟩ := byte_eq_append kk
  exact ⟨ofNibble (w.extractLsb' 12 4), x, y, ofNibble n, (word_eq_wordNnn w).trans (congrArg (wordNnn _) hnnn)⟩

/-- Settles O3: every word is four nibbles, and the first of them, the class, says what the others encode. -/
theorem encodeUndoesDecode : Obligations.EncodeUndoesDecode := by
  unfold Obligations.EncodeUndoesDecode
  intro w i h
  obtain ⟨c, x, y, n, rfl⟩ := word_eq_wordXYN w
  exact isOwnEncoding_word c x y n i h

/-- Settles O1: the table read at each of the words. -/
theorem sampleWordsDecode : Obligations.SampleWordsDecode := by
  unfold Obligations.SampleWordsDecode
  decide

/-- Two rows that accept one word agree on the bits that both fix. -/
theorem Row.pat_and_mask_of_accepts {a b : Row} {w : Word} (ha : a.accepts w = true) (hb : b.accepts w = true) :
    a.pat &&& b.mask = b.pat &&& a.mask := by
  rw [Row.accepts, beq_iff_eq] at ha hb
  rw [← ha, ← hb, BitVec.and_assoc, BitVec.and_assoc, BitVec.and_comm a.mask]

/-- The rows that agree on the bits both fix. -/
theorem rows_agreeing : ∀ a ∈ opcodeRows, ∀ b ∈ opcodeRows, a.pat &&& b.mask = b.pat &&& a.mask →
    a.mnemonic ≠ b.mnemonic →
    (a.mnemonic = "SYS" ∧ b.mnemonic ∈ ["CLS", "RET"]) ∨ (b.mnemonic = "SYS" ∧ a.mnemonic ∈ ["CLS", "RET"]) := by
  decide

/-- Settles O7: rows that accept one word agree on the bits both fix, and the table holds no other such pair. -/
theorem onlyClassZeroRowsOverlap : Obligations.OnlyClassZeroRowsOverlap := by
  unfold Obligations.OnlyClassZeroRowsOverlap
  exact fun w a b ha hb hwa hwb => rows_agreeing a ha b hb (Row.pat_and_mask_of_accepts hwa hwb)

end Sys2Proof
end

/-! STEP by the condition of the core (spec 40_step_cycle.md R100 to R105): one equation for each. -/

section
namespace Sys2Proof.Machine

variable {s t : State}

theorem step_faulted {f : EngineFault} (h : s.fault = some f) : step s = .fault (.engine f) := by
  simp only [step, h, stepFaulted]

theorem step_waiting {x : Reg} (hf : s.fault = none) (ha : s.await = some x) : step s = .next s := by
  simp only [step, hf, ha, stepWaiting]

theorem step_decoded {i : Instr} (hrun : s.Running) (hd : decode s.fetchWord = .ok i) : step s = exec i s.advancePc := by
  obtain ⟨hf, ha⟩ := hrun
  simp only [step, hf, ha, hd]

theorem step_undecoded {e : DecodeReject} (hrun : s.Running) (hd : decode s.fetchWord = .error e) :
    step s = .next (s.advancePc.raiseFault (.decodeError s.fetchWord s.pc)) := by
  obtain ⟨hf, ha⟩ := hrun
  simp only [step, hf, ha, hd, stepUndecoded]

theorem hostOp_step (font : Font) (s : State) : hostOp font .step s = stepOp s := rfl

theorem stepOp_faulted {f : EngineFault} (h : s.fault = some f) : stepOp s = .next (s, .err f) := by
  simp only [stepOp, step_faulted h]

theorem stepOp_waiting {x : Reg} (hf : s.fault = none) (ha : s.await = some x) : stepOp s = .next (s, .waiting) := by
  simp only [stepOp, step_waiting hf ha, ha, Option.isSome_some, if_true]

theorem stepReply_of_safe (h : s.fault = none) : stepReply s = .ok := by
  simp only [stepReply, h]

/-- A STEP that answers a state leaves the state as it was or is a step of the machine. -/
theorem stepOp_cases {r : Reply} (h : stepOp s = .next (t, r)) : t = s ∨ step s = .next t := by
  unfold stepOp at h
  split at h
  case h_1 u hu => cases h; exact .inr hu
  case h_2 => cases h; exact .inl rfl
  case h_3 => cases h
  case h_4 => cases h

/-- Settles O8: the two bytes at `PC` are the word fetched, and the state with `PC` 2 further is `advancePc`'s. -/
theorem stepRunsTheDecodedInstruction : Obligations.StepRunsTheDecodedInstruction := by
  unfold Obligations.StepRunsTheDecodedInstruction
  exact fun s i hrun hd => step_decoded hrun hd

/-- Settles O9: the two bytes at `PC` are the word fetched, which the record holds. -/
theorem stepTakesTheDecodeError : Obligations.StepTakesTheDecodeError := by
  unfold Obligations.StepTakesTheDecodeError
  exact fun s e hrun hd => step_undecoded hrun hd

/-- Settles O10: STEP tests `FAULT` and then `AWAIT`, before any fetch. -/
theorem faultedAndWaitingStepsChangeNothing : Obligations.FaultedAndWaitingStepsChangeNothing := by
  unfold Obligations.FaultedAndWaitingStepsChangeNothing
  refine ⟨fun font s f hf => ?faulted, fun font s x hf ha => ?waiting⟩
  case faulted => exact ⟨step_faulted hf, (hostOp_step font s).trans (stepOp_faulted hf)⟩
  case waiting => exact ⟨step_waiting hf ha, (hostOp_step font s).trans (stepOp_waiting hf ha)⟩

/-- Settles O46: `read` answers its argument, as the state and as the reply. -/
theorem readChangesNothing : Obligations.ReadChangesNothing := by
  unfold Obligations.ReadChangesNothing
  exact fun _ _ => rfl

end Sys2Proof.Machine
end

/-! What each instruction can do to the state (spec 40_step_cycle.md R103), said once. `ExecEffect` names the parts that change;
the frame statements and the invariant follow from its cases. -/

section
namespace Sys2Proof.Machine

section
variable (s : State) (x y : Reg) (nnn : Addr12) (kk : Byte) (n : Fin 16)

theorem exec_sys : exec (.sys nnn) s = .next s := rfl
theorem exec_jp : exec (.jp nnn) s = .next (s.setPc (addrOf nnn)) := rfl
theorem exec_call : exec (.call nnn) s = execCall nnn s := rfl
theorem exec_jpV0 : exec (.jpV0 nnn) s = .next (s.setPc (addrOf nnn + wordOfByte s.v[(0 : Reg)])) := rfl
theorem exec_addReg : exec (.addReg x y) s =
    .next (s.setWithFlag x (addBytes s.v[x] s.v[y]) (carryFlag s.v[x] s.v[y])) := rfl
theorem exec_sub : exec (.sub x y) s =
    .next (s.setWithFlag x (subBytes s.v[x] s.v[y]) (noBorrowFlag s.v[x] s.v[y])) := rfl
theorem exec_shr : exec (.shr x y) s = .next (s.setWithFlag x (shiftRight s.v[x]) (lowBitFlag s.v[x])) := rfl
theorem exec_subn : exec (.subn x y) s =
    .next (s.setWithFlag x (subBytes s.v[y] s.v[x]) (noBorrowFlag s.v[y] s.v[x])) := rfl
theorem exec_shl : exec (.shl x y) s = .next (s.setWithFlag x (shiftLeft s.v[x]) (highBitFlag s.v[x])) := rfl
theorem exec_rnd : exec (.rnd x kk) s = .next (s.setReg x (Config.rnd s.draws &&& kk)).countDraw := rfl
theorem exec_skp : exec (.skp x) s = execSkp x s := rfl
theorem exec_sknp : exec (.sknp x) s = execSknp x s := rfl
theorem exec_ldI : exec (.ldI nnn) s = .next (s.setI (addrOf nnn)) := rfl
theorem exec_ldVxK : exec (.ldVxK x) s = .next (s.setAwait (some x)) := rfl
theorem exec_ldF : exec (.ldF x) s = .next (s.setI (glyphAddr s.v[x])) := rfl
theorem exec_stRegs : exec (.stRegs x) s = .next (s.memWriteSeq s.i (s.regsUpTo x)) := rfl
theorem exec_ldRegs : exec (.ldRegs x) s = .next (s.setRegs (s.regsFrom s.i x)) := rfl

/-- What is plotted by DRW: the canvas after the sprite's rows (45_display.md R201). -/
def State.drawn : Canvas := Canvas.plotSprite (s.v[x]).toNat (s.v[y]).toNat (s.spriteRow s.i) n.val ⟨s.fb, false⟩

theorem exec_drw : exec (.drw x y n) s =
    .next ((s.setFb (s.drawn x y n).fb).setReg VF (flagOf (s.drawn x y n).hit)) := rfl

end

/-- The state after an instruction, by the parts of `s` that differ in it. -/
inductive ExecEffect (s : State) : Instr → State → Prop where
  /-- the instruction's registers, and perhaps a free value taken -/
  | registers {i : Instr} {v : Vector Byte 16} {d : Nat} (h : SameRegsBut (regsWritten i) s { s with v := v, draws := d }) :
      ExecEffect s i { s with v := v, draws := d }
  /-- `PC`, and perhaps a free value taken -/
  | jump {i : Instr} {p : Word} {d : Nat} : ExecEffect s i { s with pc := p, draws := d }
  | push {nnn : Addr12} (h : s.sp.toNat < 16) : ExecEffect s (.call nnn) ((s.push s.pc h).setPc (addrOf nnn))
  | overflow {nnn : Addr12} (h : 16 ≤ s.sp.toNat) : ExecEffect s (.call nnn) (s.raiseFault (.stackOverflow s.fetchAddr))
  | pop {w : Word} (h : s.sp ≠ 0) : ExecEffect s .ret ((s.setSp (s.sp - 1)).setPc w)
  | cls {f : Framebuffer} : ExecEffect s .cls (s.setFb f)
  | drw {x y : Reg} {n : Fin 16} {f : Framebuffer} {b : Byte} : ExecEffect s (.drw x y n) ((s.setFb f).setReg VF b)
  | ldI {nnn : Addr12} {w : Word} : ExecEffect s (.ldI nnn) (s.setI w)
  | addI {x : Reg} {w : Word} : ExecEffect s (.addI x) (s.setI w)
  | ldF {x : Reg} {w : Word} : ExecEffect s (.ldF x) (s.setI w)
  | ldDtVx {x : Reg} {b : Byte} : ExecEffect s (.ldDtVx x) (s.setDt b)
  | ldStVx {x : Reg} {b : Byte} : ExecEffect s (.ldStVx x) (s.setSt b)
  | ldVxK {x : Reg} : ExecEffect s (.ldVxK x) (s.setAwait (some x))
  | ldB {x : Reg} {a : Word} {bs : List Byte} : ExecEffect s (.ldB x) (s.memWriteSeq a bs)
  | stRegs {x : Reg} {a : Word} {bs : List Byte} : ExecEffect s (.stRegs x) (s.memWriteSeq a bs)

variable {s t : State} {i : Instr}

/-- A register written, with or without a free value taken. -/
theorem ExecEffect.setReg {x : Reg} {d : Nat} (hi : regsWritten i = [x]) (b : Byte) :
    ExecEffect s i { s.setReg x b with draws := d } := by
  obtain ⟨-, hregs, -, -⟩ := s.setReg_frame x b
  exact .registers (hi ▸ hregs)

theorem ExecEffect.setWithFlag {x : Reg} (hi : regsWritten i = [x, VF]) (res flag : Byte) :
    ExecEffect s i (s.setWithFlag x res flag) := by
  by_cases hx : x = VF
  · subst hx
    obtain ⟨-, hregs, -, -⟩ := s.setWithFlag_vf_frame res flag
    have hregs' : SameRegsBut (regsWritten i) s (s.setWithFlag VF res flag) := fun r hr => hregs r (by simp_all)
    exact .registers hregs'
  · obtain ⟨-, -, hregs, -⟩ := s.setWithFlag_frame hx res flag
    rw [State.setWithFlag_ne s hx] at hregs ⊢
    exact .registers (hi ▸ hregs)

theorem ExecEffect.unchanged : ExecEffect s i s := .jump

theorem ExecEffect.skipIf_of_key {u : State} (hu : u = s ∨ u = s.countDraw) (c : Bool) : ExecEffect s i (u.skipIf c) := by
  obtain rfl | rfl := hu
  · exact .jump
  · exact .jump

/-- LD Vx, [I] writes the registers up to `x`. -/
theorem ExecEffect.ldRegs (x : Reg) : ExecEffect s (.ldRegs x) (s.setRegs (s.regsFrom s.i x)) := by
  refine .registers fun r hr => ?_
  have hr' : ¬ r ≤ x := by simpa [regsWritten] using hr
  exact (s.regsFrom_get s.i x r).trans (if_neg hr')

/-- Every instruction answers a state with its effect, or is a RET that an illegal `SP` stops. -/
theorem exec_cases (i : Instr) (s : State) :
    (∃ t, exec i s = .next t ∧ ExecEffect s i t) ∨
      (i = .ret ∧ 16 < s.sp.toNat ∧ exec i s = .fault (.stackPointer s.sp)) := by
  cases i with
  | ret =>
    obtain ⟨-, h⟩ | ⟨h0, _, h⟩ | hstop := execRet_cases s
    · exact .inl ⟨_, h, .unchanged⟩
    · exact .inl ⟨_, h, .pop h0⟩
    · exact .inr ⟨rfl, hstop⟩
  | call nnn =>
    obtain ⟨hsp, h⟩ | ⟨hsp, h⟩ := execCall_cases nnn s
    · exact .inl ⟨_, h, .push hsp⟩
    · exact .inl ⟨_, h, .overflow hsp⟩
  | skp x =>
    obtain ⟨p, u, hu, h⟩ := execSkp_cases x s
    exact .inl ⟨_, h, .skipIf_of_key hu p⟩
  | sknp x =>
    obtain ⟨p, u, hu, h⟩ := execSknp_cases x s
    exact .inl ⟨_, h, .skipIf_of_key hu p⟩
  | sys nnn => exact .inl ⟨_, exec_sys s nnn, .unchanged⟩
  | jp nnn => exact .inl ⟨_, exec_jp s nnn, .jump⟩
  | jpV0 nnn => exact .inl ⟨_, exec_jpV0 s nnn, .jump⟩
  | seImm x kk => exact .inl ⟨_, exec_seImm s x kk, .jump⟩
  | sneImm x kk => exact .inl ⟨_, exec_sneImm s x kk, .jump⟩
  | seReg x y => exact .inl ⟨_, exec_seReg s x y, .jump⟩
  | sneReg x y => exact .inl ⟨_, exec_sneReg s x y, .jump⟩
  | ldImm x kk => exact .inl ⟨_, exec_ldImm s x kk, .setReg rfl _⟩
  | addImm x kk => exact .inl ⟨_, exec_addImm s x kk, .setReg rfl _⟩
  | ldReg x y => exact .inl ⟨_, exec_ldReg s x y, .setReg rfl _⟩
  | or x y => exact .inl ⟨_, exec_or s x y, .setReg rfl _⟩
  | and x y => exact .inl ⟨_, exec_and s x y, .setReg rfl _⟩
  | xor x y => exact .inl ⟨_, exec_xor s x y, .setReg rfl _⟩
  | ldVxDt x => exact .inl ⟨_, exec_ldVxDt s x, .setReg rfl _⟩
  | rnd x kk => exact .inl ⟨_, exec_rnd s x kk, .setReg rfl _⟩
  | addReg x y => exact .inl ⟨_, exec_addReg s x y, .setWithFlag rfl _ _⟩
  | sub x y => exact .inl ⟨_, exec_sub s x y, .setWithFlag rfl _ _⟩
  | shr x y => exact .inl ⟨_, exec_shr s x y, .setWithFlag rfl _ _⟩
  | subn x y => exact .inl ⟨_, exec_subn s x y, .setWithFlag rfl _ _⟩
  | shl x y => exact .inl ⟨_, exec_shl s x y, .setWithFlag rfl _ _⟩
  | ldRegs x => exact .inl ⟨_, exec_ldRegs s x, .ldRegs x⟩
  | cls => exact .inl ⟨_, exec_cls s, .cls⟩
  | drw x y n => exact .inl ⟨_, exec_drw s x y n, .drw⟩
  | ldI nnn => exact .inl ⟨_, exec_ldI s nnn, .ldI⟩
  | addI x => exact .inl ⟨_, exec_addI s x, .addI⟩
  | ldF x => exact .inl ⟨_, exec_ldF s x, .ldF⟩
  | ldVxK x => exact .inl ⟨_, exec_ldVxK s x, .ldVxK⟩
  | ldDtVx x => exact .inl ⟨_, exec_ldDtVx s x, .ldDtVx⟩
  | ldStVx x => exact .inl ⟨_, exec_ldStVx s x, .ldStVx⟩
  | ldB x => exact .inl ⟨_, exec_ldB s x, .ldB⟩
  | stRegs x => exact .inl ⟨_, exec_stRegs s x, .stRegs⟩

theorem exec_effect (h : exec i s = .next t) : ExecEffect s i t := by
  obtain ⟨u, hu, he⟩ | ⟨-, -, hstop⟩ := exec_cases i s
  · cases hu.symm.trans h
    exact he
  · cases hstop.symm.trans h

/-- Settles O52: the only instruction that may stop is RET, and it stops on an illegal `SP` only. -/
theorem everyInstructionCompletes : Obligations.EveryInstructionCompletes := by
  unfold Obligations.EveryInstructionCompletes
  intro i s hsp
  obtain ⟨t, ht, -⟩ | ⟨-, hover, -⟩ := exec_cases i s
  · exact ⟨t, ht⟩
  · omega

/-- Settles O53: only an effect on registers and DRW's write one. -/
theorem instructionsWriteOnlyTheirRegisters : Obligations.InstructionsWriteOnlyTheirRegisters := by
  unfold Obligations.InstructionsWriteOnlyTheirRegisters
  intro i s t h r hr
  cases exec_effect h with
  | registers hregs => exact hregs r hr
  | drw => exact State.setReg_get_ne _ VF r _ (by simpa [regsWritten] using hr)
  | _ => rfl

/-- Settles O54: for each part of the state, the effects that change it are those of the instructions named. -/
theorem specialRegistersHaveOnlyTheirWriters : Obligations.SpecialRegistersHaveOnlyTheirWriters := by
  unfold Obligations.SpecialRegistersHaveOnlyTheirWriters
  intro i s t h
  have he := exec_effect h
  refine ⟨fun hldI haddI hldF => ?index, fun hcall hret => ?sp, fun hcall => ?stack, fun hdt => ?dt, fun hst => ?st,
    fun hwait => ?await⟩
  case index =>
    cases he with
    | ldI => exact absurd rfl (hldI _)
    | addI => exact absurd rfl (haddI _)
    | ldF => exact absurd rfl (hldF _)
    | _ => rfl
  case sp =>
    cases he with
    | push => exact absurd rfl (hcall _)
    | pop => exact absurd rfl hret
    | _ => rfl
  case stack =>
    cases he with
    | push => exact absurd rfl (hcall _)
    | _ => rfl
  case dt =>
    cases he with
    | ldDtVx => exact absurd rfl (hdt _)
    | _ => rfl
  case st =>
    cases he with
    | ldStVx => exact absurd rfl (hst _)
    | _ => rfl
  case await =>
    cases he with
    | ldVxK => exact absurd rfl (hwait _)
    | _ => rfl

/-- Settles O55: memory and framebuffer change by the effects of the instructions named, and no effect changes a key. -/
theorem memoryAndDevicesHaveOnlyTheirWriters : Obligations.MemoryAndDevicesHaveOnlyTheirWriters := by
  unfold Obligations.MemoryAndDevicesHaveOnlyTheirWriters
  intro i s t h
  have he := exec_effect h
  refine ⟨fun hldB hstRegs => ?memory, fun hcls hdrw => ?screen, ?keys⟩
  case memory =>
    cases he with
    | ldB => exact absurd rfl (hldB _)
    | stRegs => exact absurd rfl (hstRegs _)
    | _ => rfl
  case screen =>
    cases he with
    | cls => exact absurd rfl hcls
    | drw => exact absurd rfl (hdrw _ _ _)
    | _ => rfl
  case keys =>
    cases he with
    | _ => rfl

/-- Settles O56: the one effect that changes `FAULT` is a CALL's on a full stack. -/
theorem onlyCallRaisesAFault : Obligations.OnlyCallRaisesAFault := by
  unfold Obligations.OnlyCallRaisesAFault
  intro i s t h hfault
  cases exec_effect h with
  | overflow hfull => exact ⟨_, rfl, hfull, rfl⟩
  | _ => exact absurd rfl hfault

/-- Unless it is a CALL on a full stack, an instruction completes and leaves `FAULT` as it was. -/
theorem exec_completes_keeping_fault {i : Instr} (hsp : s.SpLegal) (hi : (∀ nnn, i ≠ .call nnn) ∨ s.sp.toNat < 16) :
    ∃ t, exec i s = .next t ∧ t.fault = s.fault := by
  obtain ⟨t, ht⟩ := everyInstructionCompletes i s hsp
  refine ⟨t, ht, ?_⟩
  by_contra hfault
  obtain ⟨nnn, hcall, hfull, -⟩ := onlyCallRaisesAFault i s t ht hfault
  obtain hne | hroom := hi
  · exact hne nnn hcall
  · omega

theorem execCall_full {nnn : Addr12} (h : 16 ≤ s.sp.toNat) :
    execCall nnn s = .next (s.raiseFault (.stackOverflow s.fetchAddr)) := dif_neg (Nat.not_lt.mpr h)

/-- The fetch address is the address before the fetch's advance of `PC` (40_step_cycle.md R107). -/
theorem State.fetchAddr_advancePc (s : State) : s.advancePc.fetchAddr = s.pc := BitVec.add_sub_cancel s.pc 2

/-- STEP of a running core whose word is a CALL, with a full stack. -/
theorem step_overflow {nnn : Addr12} (hrun : s.Running) (hd : decode s.fetchWord = .ok (.call nnn)) (h : 16 ≤ s.sp.toNat) :
    step s = .next (s.advancePc.raiseFault (.stackOverflow s.pc)) := by
  rw [step_decoded hrun hd, exec_call, execCall_full (s := s.advancePc) h, State.fetchAddr_advancePc]

/-- Settles O47: the reply is read from `FAULT`, which an instruction that completes without overflow leaves at none. -/
theorem stepRepliesOkOrTheFault : Obligations.StepRepliesOkOrTheFault := by
  unfold Obligations.StepRepliesOkOrTheFault
  intro font s hrun hsp
  refine ⟨fun i hd hi => ?completes, fun nnn hd hfull => ?overflows, fun e hd => ?undecoded⟩
  case completes =>
    obtain ⟨t, ht, hfault⟩ := exec_completes_keeping_fault (s := s.advancePc) hsp hi
    have hsafe : t.fault = none := hfault.trans hrun.1
    have hop := stepOp_of_next ((step_decoded hrun hd).trans ht) hrun.2
    exact ⟨t, ht, hsafe, by rw [hostOp_step, hop, stepReply_of_safe hsafe]⟩
  case overflows => exact stepOp_of_next (step_overflow hrun hd hfull.ge) hrun.2
  case undecoded => exact stepOp_of_next (step_undecoded hrun hd) hrun.2

end Sys2Proof.Machine
end

/-! The invariant (spec 10_state.md R28, 60_exceptions.md R251 to R256): every effect of an instruction keeps it, so STEP, every
host operation and every schedule do. -/

section
namespace Sys2Proof.Machine

variable {s t : State}

theorem State.FaultTrue.of_safe (h : s.fault = none) : s.FaultTrue := by
  simp only [State.FaultTrue, h]

/-- Without a fault the invariant is the canonical form of memory and a legal `SP`. -/
theorem State.Inv.of_safe (hmem : Memory.wf t.mem = true) (hsp : t.SpLegal) (hf : t.fault = none) : t.Inv :=
  ⟨hmem, hsp, .inl hf, .of_safe hf⟩

theorem State.Inv.advancePc (hs : s.Inv) (hf : s.fault = none) : s.advancePc.Inv := .of_safe hs.memory hs.stack hf

/-- Memory in canonical form after an instruction. -/
theorem ExecEffect.wf_mem {i : Instr} (he : ExecEffect s i t) (hs : Memory.wf s.mem = true) : Memory.wf t.mem = true := by
  cases he with
  | ldB => exact Memory.wf_writeSeq _ hs
  | stRegs => exact Memory.wf_writeSeq _ hs
  | _ => exact hs

theorem ExecEffect.spLegal {i : Instr} (he : ExecEffect s i t) (hs : s.SpLegal) : t.SpLegal := by
  cases he with
  | push hroom =>
    show (s.sp + 1).toNat ≤ 16
    bv_omega
  | pop hne =>
    show (s.sp - 1).toNat ≤ 16
    bv_omega
  | _ => exact hs

theorem exec_inv {i : Instr} (hs : s.Inv) (hrun : s.Running) (h : exec i s = .next t) : t.Inv := by
  obtain ⟨hf, ha⟩ := hrun
  have he := exec_effect h
  have hmem : Memory.wf t.mem = true := he.wf_mem hs.memory
  have hsp : t.SpLegal := he.spLegal hs.stack
  cases he with
  | overflow hfull =>
    have hfetch : s.pc = s.fetchAddr + 2 := (BitVec.sub_add_cancel s.pc 2).symm
    exact ⟨hmem, hsp, .inr ha, Nat.le_antisymm hs.stack hfull, hfetch⟩
  | _ => exact .of_safe hmem hsp hf

/-- Settles O49: a hold changes nothing, an instruction keeps the invariant, and a decode error records the word and address that
it was fetched from. -/
theorem stepKeepsTheInvariant : Obligations.StepKeepsTheInvariant := by
  unfold Obligations.StepKeepsTheInvariant
  intro s t hs h
  obtain ⟨hf, ⟨x, -, rfl⟩ | ⟨ha, i, -, hexec⟩ | ⟨ha, ⟨e, hd⟩, rfl⟩⟩ := step_cases h
  · exact hs
  · exact exec_inv (hs.advancePc hf) ⟨hf, ha⟩ hexec
  · exact ⟨hs.memory, hs.stack, .inr ha, decode_error hd, rfl⟩

/-- Settles O51: without a fault STEP holds, runs an instruction, which completes, or takes the decode error. -/
theorem stepAnswersUnlessAlreadyFaulted : Obligations.StepAnswersUnlessAlreadyFaulted := by
  unfold Obligations.StepAnswersUnlessAlreadyFaulted
  refine fun s hs => ⟨fun hf => ?answers, fun f hf => step_faulted hf⟩
  case answers =>
    cases ha : s.await with
    | some x => exact ⟨s, step_waiting hf ha⟩
    | none =>
      cases hd : decode s.fetchWord with
      | ok i =>
        obtain ⟨t, ht⟩ := everyInstructionCompletes i s.advancePc hs.stack
        exact ⟨t, (step_decoded ⟨hf, ha⟩ hd).trans ht⟩
      | error e => exact ⟨_, step_undecoded ⟨hf, ha⟩ hd⟩

theorem hostOp_load (font : Font) (image : List Byte) (s : State) : hostOp font (.load image) s = loadOp image s := rfl

/-- A LOAD that answers a state has stored the image. -/
theorem hostOp_load_cases {font : Font} {image : List Byte} {r : Reply} (h : hostOp font (.load image) s = .next (t, r)) :
    t = s.memWriteSeq Config.programBase image := by
  rw [hostOp_load, loadOp] at h
  split at h
  · cases h; rfl
  · cases h

theorem State.setKey_inv (hs : s.Inv) (k : Fin 16) (b : Bool) : (s.setKey k b).Inv := by
  obtain h | ⟨x, -, -, -, h⟩ := setKey_cases s k b
  · rw [h]
    exact ⟨hs.memory, hs.stack, hs.exclusive, hs.record⟩
  · rw [h]
    exact ⟨hs.memory, hs.stack, .inr rfl, hs.record⟩

theorem stepOp_inv {r : Reply} (hs : s.Inv) (h : stepOp s = .next (t, r)) : t.Inv := by
  obtain rfl | hstep := stepOp_cases h
  · exact hs
  · exact stepKeepsTheInvariant s t hs hstep

/-- Every host operation keeps the invariant. -/
theorem hostOp_inv {font : Font} {op : HostOp} {r : Reply} (hs : s.Inv) (h : hostOp font op s = .next (t, r)) : t.Inv := by
  cases op with
  | reset => cases h; exact s.resetOp_inv font
  | load image =>
    rw [hostOp_load_cases h]
    exact ⟨Memory.wf_writeSeq _ hs.memory, hs.stack, hs.exclusive, hs.record⟩
  | step => exact stepOp_inv hs h
  | tick => cases h; exact ⟨hs.memory, hs.stack, hs.exclusive, hs.record⟩
  | setKey k b => cases h; exact State.setKey_inv hs k b
  | read => cases h; exact hs

/-- A schedule that answers a state has run its first operation, and then the others. -/
theorem hostRun_cons_cases {font : Font} {op : HostOp} {ops : List HostOp} (h : hostRun font (op :: ops) s = .next t) :
    ∃ u r, hostOp font op s = .next (u, r) ∧ hostRun font ops u = .next t := by
  unfold hostRun at h
  split at h
  case h_1 u r hu => exact ⟨u, r, hu, h⟩
  case h_2 => cases h
  case h_3 => cases h

/-- What every operation of a schedule keeps, the schedule keeps. -/
theorem hostRun_keeps {font : Font} {P : State → Prop} {ops : List HostOp}
    (hkeeps : ∀ op ∈ ops, ∀ u w r, P u → hostOp font op u = .next (w, r) → P w) (hs : P s)
    (h : hostRun font ops s = .next t) : P t := by
  induction ops generalizing s with
  | nil => cases h; exact hs
  | cons op ops ih =>
    obtain ⟨u, r, hu, hrest⟩ := hostRun_cons_cases h
    exact ih (fun op' hop => hkeeps op' (List.mem_cons_of_mem op hop)) (hkeeps op List.mem_cons_self s u r hs hu) hrest

/-- Settles O50: every operation of the schedule keeps the invariant. -/
theorem everyScheduleKeepsTheInvariant : Obligations.EveryScheduleKeepsTheInvariant := by
  unfold Obligations.EveryScheduleKeepsTheInvariant
  exact fun font ops s t hs h => hostRun_keeps (fun op _ u w r hu => hostOp_inv hu) hs h

/-- Settles O48: RESET's memory is canonical, its stack is empty and it leaves no fault, whatever the font. -/
theorem resetMeetsTheInvariant : Obligations.ResetMeetsTheInvariant := by
  unfold Obligations.ResetMeetsTheInvariant
  exact ⟨.of_safe State.reset_mem_wf (Nat.zero_le 16) rfl,
    fun font => .of_safe (State.resetWith_mem_wf font) (Nat.zero_le 16) rfl⟩

end Sys2Proof.Machine
end

/-! A core that is faulted or waiting (spec 60_exceptions.md R252, R274): STEP changes nothing, and the other operations leave
what `StillStopped` lists, until RESET or, for a wait, a press. -/

section
namespace Sys2Proof.Machine

variable {s t u : State}

/-- `t` is as faulted or as waiting as `s`, and its registers, `I`, `PC`, stack and framebuffer are those of `s`. -/
structure StillStopped (s t : State) : Prop where
  await : t.await = s.await
  fault : t.fault = s.fault
  v : t.v = s.v
  i : t.i = s.i
  pc : t.pc = s.pc
  stack : SameStack s t
  fb : t.fb = s.fb
  draws : NoDraw s t

theorem StillStopped.refl (s : State) : StillStopped s s := ⟨rfl, rfl, rfl, rfl, rfl, ⟨rfl, rfl⟩, rfl, rfl⟩

theorem StillStopped.trans (h : StillStopped s t) (h' : StillStopped t u) : StillStopped s u where
  await := h'.await.trans h.await
  fault := h'.fault.trans h.fault
  v := h'.v.trans h.v
  i := h'.i.trans h.i
  pc := h'.pc.trans h.pc
  stack := ⟨h'.stack.1.trans h.stack.1, h'.stack.2.trans h.stack.2⟩
  fb := h'.fb.trans h.fb
  draws := h'.draws.trans h.draws

/-- STEP of a core that is not running leaves the state as it was. -/
theorem stepOp_of_not_running (h : ¬ s.Running) : ∃ r, stepOp s = .next (s, r) := by
  cases hf : s.fault with
  | some f => exact ⟨_, stepOp_faulted hf⟩
  | none =>
    cases ha : s.await with
    | some x => exact ⟨_, stepOp_waiting hf ha⟩
    | none => exact absurd ⟨hf, ha⟩ h

/-- SET_KEY drives the key alone, unless it is a press that ends a wait. -/
theorem State.setKey_of_no_wait_ended {k : Fin 16} {b : Bool} (h : s.await = none ∨ b = false ∨ s.key[k] = true) :
    s.setKey k b = s.setKeyBit k b := by
  obtain hkey | ⟨x, hx, rfl, hreleased, -⟩ := setKey_cases s k b
  · exact hkey
  · simp [hx, hreleased] at h

/-- Every operation but RESET, and but a press during a wait, leaves a core that is not running as it was. -/
theorem hostOp_stillStopped {font : Font} {op : HostOp} {r : Reply} (hstop : ¬ s.Running) (hreset : op ≠ .reset)
    (hpress : s.await = none ∨ ∀ k, op ≠ .setKey k true) (h : hostOp font op s = .next (t, r)) : StillStopped s t := by
  cases op with
  | reset => exact absurd rfl hreset
  | load image =>
    rw [hostOp_load_cases h]
    exact ⟨rfl, rfl, rfl, rfl, rfl, ⟨rfl, rfl⟩, rfl, rfl⟩
  | step =>
    obtain ⟨r', hstep⟩ := stepOp_of_not_running hstop
    cases hstep.symm.trans h
    exact .refl s
  | tick => cases h; exact ⟨rfl, rfl, rfl, rfl, rfl, ⟨rfl, rfl⟩, rfl, rfl⟩
  | setKey k b =>
    have hb : s.await = none ∨ b = false ∨ s.key[k] = true :=
      hpress.imp_right fun hne => .inl (Bool.eq_false_iff.mpr fun hb => hne k (hb ▸ rfl))
    cases h
    rw [State.setKey_of_no_wait_ended hb]
    exact ⟨rfl, rfl, rfl, rfl, rfl, ⟨rfl, rfl⟩, rfl, rfl⟩
  | read => cases h; exact .refl s

/-- The same of a schedule. -/
theorem hostRun_stillStopped {font : Font} {ops : List HostOp} (hstop : ¬ s.Running) (hreset : .reset ∉ ops)
    (hpress : s.await = none ∨ ∀ k, .setKey k true ∉ ops) (h : hostRun font ops s = .next t) : StillStopped s t := by
  refine hostRun_keeps (P := StillStopped s) (fun op hop u w r hu hw => hu.trans ?_) (.refl s) h
  have hstop' : ¬ u.Running := by rwa [State.Running, hu.fault, hu.await]
  have hpress' : u.await = none ∨ ∀ k, op ≠ .setKey k true :=
    hpress.imp (hu.await.trans ·) fun hne k heq => hne k (heq ▸ hop)
  exact hostOp_stillStopped hstop' (fun heq => hreset (heq ▸ hop)) hpress' hw

/-- Settles O57: a faulted core that meets the invariant does not wait, so no press changes a register. -/
theorem faultLastsUntilReset : Obligations.FaultLastsUntilReset := by
  unfold Obligations.FaultLastsUntilReset
  intro font ops s t f hs hf hreset h
  have hfault : s.fault ≠ none := hf ▸ Option.some_ne_none f
  have hstop : ¬ s.Running := fun ⟨hnone, _⟩ => hfault hnone
  have hno_wait : s.await = none := hs.exclusive.resolve_left hfault
  have hkept := hostRun_stillStopped hstop hreset (.inl hno_wait) h
  exact ⟨hkept.fault.trans hf, hkept.v, hkept.i, hkept.pc, hkept.stack, hkept.fb, hkept.draws⟩

/-- Settles O58: without RESET and without a press nothing ends the wait. -/
theorem waitLastsUntilAPress : Obligations.WaitLastsUntilAPress := by
  unfold Obligations.WaitLastsUntilAPress
  intro font ops s t x hf ha hreset hpress h
  have hwait : s.await ≠ none := ha ▸ Option.some_ne_none x
  have hstop : ¬ s.Running := fun ⟨_, hnone⟩ => hwait hnone
  have hkept := hostRun_stillStopped hstop hreset (.inr hpress) h
  exact ⟨hkept.await.trans ha, hkept.fault.trans hf, hkept.v, hkept.i, hkept.pc, hkept.stack, hkept.fb, hkept.draws⟩

end Sys2Proof.Machine
end

/-! Control transfer (spec 41_control_transfer.md): jumps, CALL and RET, and the balance of calls and returns. -/

section
namespace Sys2Proof.Machine

section
variable (s : State) (nnn : Addr12)

theorem addrOf_toNat : (addrOf nnn).toNat = nnn.toNat := BitVec.toNat_setWidth_of_le (by omega)

/-- The sum of an address and a byte fits 16 bits (41_control_transfer.md R125). -/
theorem addrOf_add_wordOfByte_toNat (b : Byte) : (addrOf nnn + wordOfByte b).toNat = nnn.toNat + b.toNat := by
  have hb : (wordOfByte b).toNat = b.toNat := BitVec.toNat_setWidth_of_le (by omega)
  have hfits : nnn.toNat + b.toNat < 2 ^ 16 := by omega
  rw [BitVec.toNat_add, addrOf_toNat, hb, Nat.mod_eq_of_lt hfits]

end

/-- Settles O12: SYS answers its argument and JP writes `PC` and nothing else. -/
theorem sysDoesNothingAndJumpSetsPc : Obligations.SysDoesNothingAndJumpSetsPc := by
  unfold Obligations.SysDoesNothingAndJumpSetsPc
  intro nnn
  refine ⟨fun hcls hret => ?sys, decode_jp nnn, fun s => ⟨exec_sys s nnn, ?jp⟩⟩
  case sys => rw [classZeroDecodesInFull, if_neg hcls, if_neg hret]
  case jp => exact ⟨_, exec_jp s nnn, addrOf_toNat nnn, s.setPc_frame _⟩

/-- Settles O17: JP V0 writes the sum to `PC`, and two operands of 12 and 8 bits do not exceed 16. -/
theorem jumpV0SetsPcToTheSum : Obligations.JumpV0SetsPcToTheSum := by
  unfold Obligations.JumpV0SetsPcToTheSum
  refine fun nnn => ⟨decode_jpV0 nnn, fun s => ?_⟩
  have hsum := addrOf_add_wordOfByte_toNat nnn s.v[(0 : Reg)]
  have hmax : (addrOf nnn + wordOfByte s.v[(0 : Reg)]).toNat ≤ 0x10FE := by omega
  exact ⟨_, exec_jpV0 s nnn, hsum, hmax, s.setPc_frame _⟩

/-- An `SP` that leaves room increments without a carry. -/
theorem toNat_add_one_of_lt {b : Byte} (h : b.toNat < 16) : (b + 1).toNat = b.toNat + 1 := by
  bv_omega

/-- The state after a CALL with room on the stack (41_control_transfer.md R122). -/
def State.called (s : State) (nnn : Addr12) (h : s.sp.toNat < 16) : State := (s.push s.pc h).setPc (addrOf nnn)

section
variable (s : State) (nnn : Addr12) (h : s.sp.toNat < 16)

theorem exec_call_room : exec (.call nnn) s = .next (s.called nnn h) := dif_pos h

theorem State.called_sp_toNat : (s.called nnn h).sp.toNat = s.sp.toNat + 1 := toNat_add_one_of_lt h

theorem State.called_stack_get (k : Fin 16) :
    (s.called nnn h).stack[k] = if k.val = s.sp.toNat then s.pc else s.stack[k] := by
  simp only [State.called, State.setPc_stack, State.push_eq, State.setSp_stack, State.setStack_stack, Fin.getElem_fin,
    Vector.getElem_set, eq_comm]

/-- Where the entry of a CALL is still the return address, RET undoes the CALL. -/
theorem exec_ret_called (k : Vector Word 16) (hreturn : k[s.sp.toNat] = s.pc) :
    exec .ret ((s.called nnn h).setStack k) = .next (s.setStack k) := by
  have hpopped : ((s.called nnn h).setStack k).sp - 1 = s.sp := BitVec.add_sub_cancel s.sp 1
  rw [exec_ret, execRet_pop ((s.called nnn h).setStack k) ⟨s.sp.toNat, h⟩ (s.called_sp_toNat nnn h), hpopped]
  exact congrArg (fun pc => Host.Outcome.next { s with stack := k, pc := pc }) hreturn

end

/-- Settles O14: CALL's second case. -/
theorem callOverflowWritesNothing : Obligations.CallOverflowWritesNothing := by
  unfold Obligations.CallOverflowWritesNothing
  exact fun nnn s hfull => (exec_call s nnn).trans (execCall_full hfull)

/-- Settles O13: the two cases of CALL, by the room on the stack. -/
theorem callPushesOrRaises : Obligations.CallPushesOrRaises := by
  unfold Obligations.CallPushesOrRaises
  refine fun nnn => ⟨decode_call nnn, fun s => ⟨fun j hsp => ?push, fun hfull => ?overflow⟩⟩
  case push =>
    have hroom : s.sp.toNat < 16 := hsp ▸ j.isLt
    have hmem : SameMemory s (s.called nnn hroom) := .of_mem rfl
    have hcount : (s.called nnn hroom).sp.toNat = j.val + 1 := (s.called_sp_toNat nnn hroom).trans (congrArg (· + 1) hsp)
    have hentry := s.called_stack_get nnn hroom
    have hother (k : Fin 16) (hk : k ≠ j) : k.val ≠ s.sp.toNat := fun h => hk (Fin.ext (h.trans hsp))
    exact ⟨_, exec_call_room s nnn hroom, (hentry j).trans (if_pos hsp.symm),
      fun k hk => (hentry k).trans (if_neg (hother k hk)), hcount, addrOf_toNat nnn, rfl, rfl, ⟨rfl, rfl⟩, hmem, ⟨rfl, rfl⟩, ⟨rfl, rfl⟩, rfl⟩
  case overflow => exact ⟨_, callOverflowWritesNothing nnn s hfull, rfl⟩

/-- Settles O16: RET's third case. -/
theorem retWithIllegalSpStops : Obligations.RetWithIllegalSpStops := by
  unfold Obligations.RetWithIllegalSpStops
  intro s hover
  obtain ⟨hempty, -⟩ | ⟨-, hentry, -⟩ | ⟨-, hstop⟩ := execRet_cases s
  · simp [hempty] at hover
  · omega
  · exact (exec_ret s).trans hstop

theorem execAll_cons_of_next {i : Instr} {s t : State} (is : List Instr) (h : exec i s = .next t) :
    execAll (i :: is) s = execAll is t := by
  simp only [execAll, h]

theorem execAll_append_of_next {is : List Instr} {s t : State} (js : List Instr) (h : execAll is s = .next t) :
    execAll (is ++ js) s = execAll js t := by
  induction is generalizing s with
  | nil => cases h; rfl
  | cons i is ih =>
    unfold execAll at h
    split at h
    case h_1 u hu => exact (execAll_cons_of_next _ hu).trans (ih h)
    case h_2 => cases h
    case h_3 => cases h

/-- CALLs that fit the stack and as many RETs change nothing but the entries of the stack from `SP` on. -/
theorem execAll_calls_rets (targets : List Addr12) (s : State) (hfit : s.sp.toNat + targets.length ≤ 16) :
    ∃ k : Vector Word 16, (∀ j : Fin 16, j.val < s.sp.toNat → k[j] = s.stack[j]) ∧
      execAll (targets.map Instr.call ++ List.replicate targets.length Instr.ret) s = .next (s.setStack k) := by
  induction targets generalizing s with
  | nil => exact ⟨s.stack, fun _ _ => rfl, rfl⟩
  | cons nnn targets ih =>
    rw [List.length_cons] at hfit
    have hroom : s.sp.toNat < 16 := by omega
    have hsp := s.called_sp_toNat nnn hroom
    have hentry := s.called_stack_get nnn hroom
    obtain ⟨k, hkept, hinner⟩ := ih (s.called nnn hroom) (by omega)
    refine ⟨k, fun j hj => ?below, ?run⟩
    case below => exact (hkept j (by omega)).trans ((hentry j).trans (if_neg hj.ne))
    case run =>
      have hreturn : k[s.sp.toNat] = s.pc :=
        (hkept ⟨s.sp.toNat, hroom⟩ (hsp ▸ Nat.lt_succ_self _)).trans ((hentry _).trans (if_pos rfl))
      have hret := exec_ret_called s nnn hroom k hreturn
      rw [List.length_cons, List.replicate_succ', ← List.append_assoc, List.map_cons, List.cons_append, List.cons_append,
        execAll_cons_of_next _ (exec_call_room s nnn hroom), execAll_append_of_next _ hinner, execAll_cons_of_next _ hret]
      rfl

/-- CALLs that fit the stack leave `SP` that many higher. -/
theorem execAll_calls (targets : List Addr12) (s : State) (hfit : s.sp.toNat + targets.length ≤ 16) :
    ∃ t, execAll (targets.map Instr.call) s = .next t ∧ t.sp.toNat = s.sp.toNat + targets.length := by
  induction targets generalizing s with
  | nil => exact ⟨s, rfl, rfl⟩
  | cons nnn targets ih =>
    rw [List.length_cons] at hfit ⊢
    have hroom : s.sp.toNat < 16 := by omega
    have hcalled := s.called_sp_toNat nnn hroom
    obtain ⟨t, hrun, hsp⟩ := ih (s.called nnn hroom) (by omega)
    exact ⟨t, (execAll_cons_of_next _ (exec_call_room s nnn hroom)).trans hrun, by omega⟩

/-- Settles O18: CALLs and RETs that fit change stack entries alone, and sixteen CALLs fill the stack. -/
theorem callsAndReturnsBalance : Obligations.CallsAndReturnsBalance := by
  unfold Obligations.CallsAndReturnsBalance
  refine ⟨fun s targets hfit => ?balance, fun s targets last hempty hcount => ?overflow⟩
  case balance =>
    obtain ⟨k, -, hrun⟩ := execAll_calls_rets targets s hfit
    exact ⟨_, hrun, rfl, rfl, rfl, rfl, .of_mem rfl, rfl, rfl⟩
  case overflow =>
    have hsp : s.sp.toNat = 0 := congrArg BitVec.toNat hempty
    obtain ⟨t, hrun, htop⟩ := execAll_calls targets s (by omega)
    have hfull : t.sp.toNat = 16 := by omega
    have hlast := callOverflowWritesNothing last t hfull.ge
    exact ⟨_, _, (execAll_append_of_next _ hrun).trans (execAll_cons_of_next _ hlast), rfl, hfull⟩

/-! The PC after each instruction (40_step_cycle.md R106). -/

theorem State.keyPressed_fst (s : State) (k : Byte) : (s.keyPressed k).1 = pressedBit s k := by
  by_cases h : k.toNat < 16
  · rw [State.keyPressed_key s k h, pressedBit, dif_pos h]
  · rw [State.keyPressed_free s k h, pressedBit, dif_neg h]

/-- The key test leaves `PC` as it was. -/
theorem State.keyPressed_snd_pc (s : State) (k : Byte) : (s.keyPressed k).2.pc = s.pc := by
  obtain h | h := s.keyPressed_state k
  · rw [h]
  · rw [h, State.countDraw_pc]

theorem exec_skp_pc (x : Reg) (s : State) :
    ∃ t, exec (.skp x) s = .next t ∧ t.pc = if pressedBit s s.v[x] = true then s.pc + 2 else s.pc := by
  refine ⟨(s.keyPressed s.v[x]).2.skipIf (s.keyPressed s.v[x]).1, rfl, ?_⟩
  rw [State.skipIf_pc, State.keyPressed_snd_pc, State.keyPressed_fst]

theorem exec_sknp_pc (x : Reg) (s : State) :
    ∃ t, exec (.sknp x) s = .next t ∧ t.pc = if pressedBit s s.v[x] = false then s.pc + 2 else s.pc := by
  refine ⟨(s.keyPressed s.v[x]).2.skipIf !(s.keyPressed s.v[x]).1, rfl, ?_⟩
  simp only [State.skipIf_pc, State.keyPressed_snd_pc, State.keyPressed_fst, Bool.not_eq_true']

/-- Settles O11: each instruction writes `PC` as its row says, and most leave it at the value after the fetch. -/
theorem pcAfterEveryInstruction : Obligations.PcAfterEveryInstruction := by
  unfold Obligations.PcAfterEveryInstruction
  intro s i hrun hsp hd
  rw [step_decoded hrun hd]
  cases i with
  | call nnn =>
    obtain ⟨hroom, h⟩ | ⟨hfull, h⟩ := execCall_cases nnn s.advancePc
    · exact ⟨_, h, (if_pos hroom).symm⟩
    · exact ⟨_, h, (if_neg (Nat.not_lt.mpr hfull)).symm⟩
  | ret =>
    obtain ⟨hempty, h⟩ | ⟨hne, hentry, h⟩ | ⟨hover, -⟩ := execRet_cases s.advancePc
    · exact ⟨_, h, (if_pos hempty).symm⟩
    · have hentry : s.sp.toNat - 1 < 16 := hentry
      have hpopped : s.stack[s.sp.toNat - 1]?.getD (s.pc + 2) = s.stack[s.sp.toNat - 1] := by
        rw [Vector.getElem?_eq_getElem hentry, Option.getD_some]
      exact ⟨_, h, hpopped.symm.trans (if_neg hne).symm⟩
    · exact absurd hsp (Nat.not_le.mpr hover)
  | seImm x kk => exact ⟨_, exec_seImm _ x kk, State.skipIf_beq_pc _ _ _⟩
  | sneImm x kk => exact ⟨_, exec_sneImm _ x kk, (State.skipIf_bne_pc _ _ _).trans (ite_not _ _ _).symm⟩
  | seReg x y => exact ⟨_, exec_seReg _ x y, State.skipIf_beq_pc _ _ _⟩
  | sneReg x y => exact ⟨_, exec_sneReg _ x y, (State.skipIf_bne_pc _ _ _).trans (ite_not _ _ _).symm⟩
  | skp x => exact exec_skp_pc x s.advancePc
  | sknp x => exact exec_sknp_pc x s.advancePc
  | addReg x y => exact ⟨_, exec_addReg _ x y, State.setWithFlag_pc ..⟩
  | sub x y => exact ⟨_, exec_sub _ x y, State.setWithFlag_pc ..⟩
  | shr x y => exact ⟨_, exec_shr _ x y, State.setWithFlag_pc ..⟩
  | subn x y => exact ⟨_, exec_subn _ x y, State.setWithFlag_pc ..⟩
  | shl x y => exact ⟨_, exec_shl _ x y, State.setWithFlag_pc ..⟩
  | _ => exact ⟨_, rfl, rfl⟩

end Sys2Proof.Machine
end

/-! The skips on a key (spec 42_skips.md R144 to R146): by the key number, a key the core has or the free bit. -/

section
namespace Sys2Proof.Machine

/-- The skip of SKNP. -/
theorem State.skipIf_not_pc (s : State) (c : Bool) : (s.skipIf !c).pc = if c = true then s.pc else s.pc + 2 := by
  cases c <;> rfl

/-- Settles O20: with a key number below 16 the skip reads the key and takes no free value. -/
theorem keySkipsReadTheKey : Obligations.KeySkipsReadTheKey := by
  unfold Obligations.KeySkipsReadTheKey
  refine fun x => ⟨(checkedClassesDecodeInFull.2 x 0x9E).1, (checkedClassesDecodeInFull.2 x 0xA1).1, fun s k hk => ?_⟩
  have hlow : (s.v[x]).toNat < 16 := hk ▸ k.isLt
  have hkey : s.key[(s.v[x]).toNat] = s.key[k] := getElem_congr_idx hk
  refine ⟨⟨_, (exec_skp s x).trans (execSkp_key x s hlow), ?skp, s.skipIf_frame _⟩,
    ⟨_, (exec_sknp s x).trans (execSknp_key x s hlow), ?sknp, s.skipIf_frame _⟩⟩
  case skp => rw [State.skipIf_pc, hkey]
  case sknp => rw [State.skipIf_not_pc, hkey]

/-- Settles O21: with any other key number the skip takes a free value and tests it. -/
theorem keyNumberOver15SkipsEitherWay : Obligations.KeyNumberOver15SkipsEitherWay := by
  unfold Obligations.KeyNumberOver15SkipsEitherWay
  intro x s hover
  have hfree : ¬ (s.v[x]).toNat < 16 := Nat.not_lt.mpr hover
  exact ⟨⟨_, (exec_skp s x).trans (execSkp_free x s hfree), s.countDraw.skipIf_pc _, s.countDraw_skipIf_frame _⟩,
    ⟨_, (exec_sknp s x).trans (execSknp_free x s hfree), s.countDraw.skipIf_not_pc _, s.countDraw_skipIf_frame _⟩⟩

end Sys2Proof.Machine
end

/-! The operations that set a flag (spec 43_load_alu.md R166 to R171) and RND (44_random.md R190): a result with its flag, or
for the destination `VF` the free value, of which `State.setWithFlag_frame` and `State.setWithFlag_vf_frame` are the frames. -/

section
namespace Sys2Proof.Machine

theorem lowBitFlag_eq (a : Byte) : lowBitFlag a = if a.getLsbD 0 then 1 else 0 := rfl

theorem highBitFlag_eq (a : Byte) : highBitFlag a = if a.getLsbD 7 then 1 else 0 := rfl

/-- The flag of `a - b` by the operands' numbers. -/
theorem noBorrowFlag_eq_toNat (a b : Byte) : noBorrowFlag a b = if b.toNat ≤ a.toNat then 1 else 0 := by
  simp only [noBorrowFlag_eq, BitVec.le_def]

/-- `State.setWithFlag_frame` with the result and the flag in another form. -/
theorem State.setWithFlag_frame_of_eq (s : State) {x : Reg} (hx : x ≠ VF) {res flag res' flag' : Byte} (hres : res = res')
    (hflag : flag = flag') :
    (s.setWithFlag x res flag).v[x] = res' ∧ (s.setWithFlag x res flag).v[VF] = flag' ∧
      SameRegsBut [x, VF] s (s.setWithFlag x res flag) ∧ SameBeyondRegs s (s.setWithFlag x res flag) ∧
      NoDraw s (s.setWithFlag x res flag) := by
  subst hres hflag
  exact s.setWithFlag_frame hx res flag

/-- Settles O25: the narrowed results are sum and difference of bit vectors, and the flags compare the operands. -/
theorem addAndSubtractSetTheFlag : Obligations.AddAndSubtractSetTheFlag := by
  unfold Obligations.AddAndSubtractSetTheFlag
  intro x y
  have hclass8 (n : BitVec 4) := (checkedClassesDecodeInFull.1 x y n).2.2
  refine ⟨hclass8 0x4, hclass8 0x5, hclass8 0x7, fun s hx => ⟨?add, ?sub, ?subn⟩⟩
  case add => exact ⟨_, exec_addReg s x y, s.setWithFlag_frame_of_eq hx (addBytes_eq _ _) (carryFlag_eq _ _)⟩
  case sub => exact ⟨_, exec_sub s x y, s.setWithFlag_frame_of_eq hx (subBytes_eq _ _) (noBorrowFlag_eq_toNat _ _)⟩
  case subn => exact ⟨_, exec_subn s x y, s.setWithFlag_frame_of_eq hx (subBytes_eq _ _) (noBorrowFlag_eq_toNat _ _)⟩

/-- Settles O26: the results are shifts of bit vectors, and the flags are the bits shifted out. -/
theorem shiftsMoveOneBitIntoTheFlag : Obligations.ShiftsMoveOneBitIntoTheFlag := by
  unfold Obligations.ShiftsMoveOneBitIntoTheFlag
  intro x y
  have hclass8 (n : BitVec 4) := (checkedClassesDecodeInFull.1 x y n).2.2
  refine ⟨hclass8 0x6, hclass8 0xE, fun s hx => ⟨?shr, ?shl⟩⟩
  case shr => exact ⟨_, exec_shr s x y, s.setWithFlag_frame_of_eq hx (shiftRight_eq _) (lowBitFlag_eq _)⟩
  case shl => exact ⟨_, exec_shl s x y, s.setWithFlag_frame_of_eq hx (shiftLeft_eq _) (highBitFlag_eq _)⟩

/-- Settles O27: each of the five is `setWithFlag` on `VF`, whatever its result and its flag. -/
theorem vfAsDestinationAndFlagIsFree : Obligations.VfAsDestinationAndFlagIsFree := by
  unfold Obligations.VfAsDestinationAndFlagIsFree
  intro y s i hi
  have hflagged : ∃ res flag, exec i s = .next (s.setWithFlag VF res flag) := by
    simp only [List.mem_cons, List.not_mem_nil, or_false] at hi
    obtain rfl | rfl | rfl | rfl | rfl := hi
    · exact ⟨_, _, exec_addReg s VF y⟩
    · exact ⟨_, _, exec_sub s VF y⟩
    · exact ⟨_, _, exec_shr s VF y⟩
    · exact ⟨_, _, exec_subn s VF y⟩
    · exact ⟨_, _, exec_shl s VF y⟩
  obtain ⟨res, flag, h⟩ := hflagged
  exact ⟨_, h, s.setWithFlag_vf_frame res flag⟩

/-- Settles O28: a register write of the drawn byte under its mask, and one draw. -/
theorem rndMasksTheDrawnByte : Obligations.RndMasksTheDrawnByte := by
  unfold Obligations.RndMasksTheDrawnByte
  intro x kk s
  obtain ⟨hval, hregs, hbeyond, -⟩ := s.setReg_frame x (Config.rnd s.draws &&& kk)
  have hmask : (Config.rnd s.draws &&& kk) &&& ~~~kk = 0 := by
    rw [BitVec.and_assoc, BitVec.and_not_self]
    exact BitVec.and_zero
  exact ⟨_, exec_rnd s x kk, hval, (congrArg (· &&& ~~~kk) hval).trans hmask, hregs, hbeyond, rfl⟩

end Sys2Proof.Machine
end

/-! DRW (spec 45_display.md R201 to R206), from `Canvas.plotSprite_spec`: a plotted pixel toggles, any other stays, and the flag
says whether a plotted pixel was lit. -/

section
namespace Sys2Proof.Machine

variable (s : State) (x y : Reg) (n : Fin 16)

/-- The pixels that DRW plots in `s`. -/
abbrev State.Plotted : Fin 64 → Fin 32 → Prop :=
  Plots (s.v[x]).toNat (s.v[y]).toNat (fun r => s.memRead (s.i + BitVec.ofNat 16 r)) n.val

/-- A plotted pixel was lit before. -/
def State.Collides : Prop := ∃ c r, s.Plotted x y n c r ∧ s.fb[c][r] = true

theorem State.drawn_spec :
    (∀ c r, (s.drawn x y n).fb[c][r] = true ↔ ¬ (s.fb[c][r] = true ↔ s.Plotted x y n c r)) ∧
      ((s.drawn x y n).hit = true ↔ false = true ∨ s.Collides x y n) :=
  Canvas.plotSprite_spec _ _ (s.spriteRow s.i) n.val (by omega) ⟨s.fb, false⟩

theorem State.drawn_hit : (s.drawn x y n).hit = true ↔ s.Collides x y n := by
  obtain ⟨-, hhit⟩ := s.drawn_spec x y n
  exact hhit.trans (or_iff_right Bool.false_ne_true)

variable {s x y n} {c : Fin 64} {r : Fin 32}

theorem State.drawn_pixel_of_plotted (h : s.Plotted x y n c r) : (s.drawn x y n).fb[c][r] = !s.fb[c][r] := by
  obtain ⟨hpixel, -⟩ := s.drawn_spec x y n
  rw [Bool.eq_iff_iff, hpixel, iff_true_right h, Bool.not_eq_true', Bool.not_eq_true]

theorem State.drawn_pixel_of_not_plotted (h : ¬ s.Plotted x y n c r) : (s.drawn x y n).fb[c][r] = s.fb[c][r] := by
  obtain ⟨hpixel, -⟩ := s.drawn_spec x y n
  rw [Bool.eq_iff_iff, hpixel, not_iff_of_not h]

/-- The flag that DRW leaves, in any state with the canvas's `hit` as flag. -/
theorem vf_of_collides {t : State} (ht : t.v[VF] = flagOf (s.drawn x y n).hit) :
    (s.Collides x y n → t.v[VF] = 1) ∧ (¬ s.Collides x y n → t.v[VF] = 0) := by
  rw [ht, flagOf_eq_one, flagOf_eq_zero, ← Bool.not_eq_true, State.drawn_hit]
  exact ⟨id, id⟩

/-- Settles O30: the canvas after the sprite toggles the plotted pixels, and DRW writes it and the flag and nothing else. -/
theorem drwTogglesThePlottedPixels : Obligations.DrwTogglesThePlottedPixels := by
  unfold Obligations.DrwTogglesThePlottedPixels
  refine fun x y n => ⟨decode_drw x y n, fun s => ?_⟩
  obtain ⟨hflag, hregs, -, -⟩ := (s.setFb (s.drawn x y n).fb).setReg_frame VF (flagOf (s.drawn x y n).hit)
  obtain ⟨hone, hzero⟩ := vf_of_collides hflag
  exact ⟨_, exec_drw s x y n, fun c r => ⟨State.drawn_pixel_of_plotted, State.drawn_pixel_of_not_plotted⟩, hone, hzero,
    hregs, rfl, rfl, rfl, ⟨rfl, rfl⟩, ⟨rfl, rfl⟩, .of_mem rfl, ⟨rfl, rfl⟩, rfl⟩

theorem Framebuffer.ext {f g : Framebuffer} (h : ∀ (c : Fin 64) (r : Fin 32), f[c][r] = g[c][r]) : f = g :=
  Vector.ext fun c hc => Vector.ext fun r hr => h ⟨c, hc⟩ ⟨r, hr⟩

/-- The same coordinates, `I` and sprite bytes plot the same pixels. -/
theorem State.plotted_congr {u : State} (hx : u.v[x] = s.v[x]) (hy : u.v[y] = s.v[y]) (hi : u.i = s.i)
    (hmem : SameMemory s u) : u.Plotted x y n = s.Plotted x y n := by
  have hrows : (fun r => u.memRead (u.i + BitVec.ofNat 16 r)) = fun r => s.memRead (s.i + BitVec.ofNat 16 r) :=
    funext fun r => hi ▸ hmem _
  rw [State.Plotted, hx, hy, hrows]

/-- A second draw on the canvas of the first toggles every plotted pixel back. -/
theorem State.drawn_twice_fb {u : State} (hplot : u.Plotted x y n = s.Plotted x y n) (hfb : u.fb = (s.drawn x y n).fb) :
    (u.drawn x y n).fb = s.fb := by
  refine Framebuffer.ext fun c r => ?_
  by_cases hp : s.Plotted x y n c r
  · rw [State.drawn_pixel_of_plotted (hplot ▸ hp), hfb, State.drawn_pixel_of_plotted hp, Bool.not_not]
  · rw [State.drawn_pixel_of_not_plotted (hplot ▸ hp), hfb, State.drawn_pixel_of_not_plotted hp]

/-- It collides exactly where a plotted pixel was unlit before the first. -/
theorem State.drawn_twice_collides {u : State} (hplot : u.Plotted x y n = s.Plotted x y n)
    (hfb : u.fb = (s.drawn x y n).fb) : u.Collides x y n ↔ ∃ c r, s.Plotted x y n c r ∧ s.fb[c][r] = false := by
  have hlit {c : Fin 64} {r : Fin 32} (hp : s.Plotted x y n c r) : u.fb[c][r] = true ↔ s.fb[c][r] = false := by
    rw [hfb, State.drawn_pixel_of_plotted hp, Bool.not_eq_true']
  simp only [State.Collides, hplot]
  exact exists₂_congr fun c r => and_congr_right hlit

/-- Settles O31: the second draw plots the same pixels on the canvas of the first. -/
theorem drawingTwiceRestores : Obligations.DrawingTwiceRestores := by
  unfold Obligations.DrawingTwiceRestores
  intro x y n s t u hfirst hfb hx hy hi hmem
  have hplot : u.Plotted x y n = s.Plotted x y n := State.plotted_congr hx hy hi hmem
  have hcanvas : u.fb = (s.drawn x y n).fb := by
    cases (exec_drw s x y n).symm.trans hfirst
    exact hfb
  obtain ⟨hflag, -⟩ := (u.setFb (u.drawn x y n).fb).setReg_frame VF (flagOf (u.drawn x y n).hit)
  have hvf := vf_of_collides hflag
  rw [State.drawn_twice_collides hplot hcanvas] at hvf
  exact ⟨_, exec_drw u x y n, State.drawn_twice_fb hplot hcanvas, hvf⟩

/-- A byte with a set bit has one among its eight. -/
theorem exists_bit_of_ne_zero {b : Byte} (h : b ≠ 0) : ∃ j < 8, b.getLsbD (7 - j) = true := by
  revert b
  decide

/-- A sprite with a set bit plots a pixel. -/
theorem exists_plots_of_row_ne_zero {cx cy m k : Nat} {rows : Nat → Byte} (hk : k < m) (h : rows k ≠ 0) :
    ∃ c r, Plots cx cy rows m c r := by
  obtain ⟨j, hj, hbit⟩ := exists_bit_of_ne_zero h
  exact ⟨_, _, k, hk, j, hj, hbit, rfl, rfl⟩

/-- Settles O59: the plotted pixel of the set bit was unlit, or the first draw would have reported it. -/
theorem secondDrawReportsAfterAFirstWithout : Obligations.SecondDrawReportsAfterAFirstWithout := by
  unfold Obligations.SecondDrawReportsAfterAFirstWithout
  intro x y n s t u hfirst hclear hfb hx hy hi hmem hset
  obtain ⟨k, hk, hrow⟩ := hset
  obtain ⟨c, r, hp⟩ := exists_plots_of_row_ne_zero (cx := (s.v[x]).toNat) (cy := (s.v[y]).toNat)
    (rows := fun r => s.memRead (s.i + BitVec.ofNat 16 r)) hk hrow
  have hunlit : s.fb[c][r] = false := by
    by_contra hlit
    obtain ⟨-, hdrw⟩ := drwTogglesThePlottedPixels x y n
    obtain ⟨t', ht', -, hreports, -⟩ := hdrw s
    cases ht'.symm.trans hfirst
    have hone := hreports ⟨c, r, hp, Bool.eq_true_of_not_eq_false hlit⟩
    exact absurd (hone.symm.trans hclear) (by decide)
  obtain ⟨w, hw, hrestored, hreports, -⟩ := drawingTwiceRestores x y n s t u hfirst hfb hx hy hi hmem
  exact ⟨w, hw, hrestored, hreports ⟨c, r, hp, hunlit⟩⟩

end Sys2Proof.Machine
end

/-! `I` and the memory transfers (spec 46_timer_memory.md R221 to R229) and memory itself (20_memory.md). A store and what a later
load reads are `State.memWriteSeq_read` and `State.regsFrom_get`. -/

section
namespace Sys2Proof.Machine

theorem glyphAddr_toNat (d : Byte) : (glyphAddr d).toNat = d.toNat * 5 := by
  have hfits : d.toNat * 5 < 2 ^ 16 := by omega
  rw [glyphAddr, BitVec.toNat_ofNat, Nat.mod_eq_of_lt hfits]

/-- Settles O33: LD Vx, K writes `AWAIT` and nothing else. -/
theorem ldVxKStartsTheWait : Obligations.LdVxKStartsTheWait := by
  unfold Obligations.LdVxKStartsTheWait
  intro x s
  exact ⟨_, exec_ldVxK s x, rfl, rfl, rfl, rfl, rfl, ⟨rfl, rfl⟩, ⟨rfl, rfl⟩, .of_mem rfl, ⟨rfl, rfl⟩, rfl⟩

/-- The frame of a write to `I`. -/
theorem State.setI_frame (s : State) (w : Word) :
    (s.setI w).v = s.v ∧ (s.setI w).pc = s.pc ∧ SameStack s (s.setI w) ∧ SameTimers s (s.setI w) ∧
      SameMemory s (s.setI w) ∧ SameScreenKeys s (s.setI w) ∧ SameHidden s (s.setI w) ∧ NoDraw s (s.setI w) :=
  ⟨rfl, rfl, ⟨rfl, rfl⟩, ⟨rfl, rfl⟩, .of_mem rfl, ⟨rfl, rfl⟩, ⟨rfl, rfl⟩, rfl⟩

/-- Settles O35: both write `I` and nothing else; five times a byte fits 16 bits. -/
theorem ldIAndLdFSetI : Obligations.LdIAndLdFSetI := by
  unfold Obligations.LdIAndLdFSetI
  refine fun x nnn s => ⟨?ldI, ?ldF⟩
  case ldI => exact ⟨_, exec_ldI s nnn, addrOf_toNat nnn, s.setI_frame _⟩
  case ldF => exact ⟨_, exec_ldF s x, glyphAddr_toNat _, s.setI_frame _⟩

theorem State.regsUpTo_length_le (s : State) (x : Reg) : (s.regsUpTo x).length ≤ 4096 := by
  rw [State.regsUpTo_length]; omega

/-- A register up to `x` reads back from the bytes that LD [I], Vx stores. -/
theorem State.memWriteSeq_regsUpTo_read (s : State) (base : Word) {x r : Reg} (h : r ≤ x) :
    (s.memWriteSeq base (s.regsUpTo x)).memRead (base + BitVec.ofNat 16 r.val) = s.v[r] := by
  have hr : r.val < (s.regsUpTo x).length := by
    rw [State.regsUpTo_length]
    exact Nat.lt_succ_of_le h
  rw [State.memWriteSeq_read s base _ (s.regsUpTo_length_le x) r.val hr]
  simp only [State.regsUpTo, List.getElem_take, Vector.getElem_toList, Fin.getElem_fin]

/-- Settles O37: the stored bytes read back as the registers, and a store changes no byte but those it stores. -/
theorem storeRegistersFillsMemory : Obligations.StoreRegistersFillsMemory := by
  unfold Obligations.StoreRegistersFillsMemory
  intro x s
  have hframe := s.memWriteSeq_frame s.i (s.regsUpTo x) (s.regsUpTo_length_le x)
  rw [State.regsUpTo_length] at hframe
  exact ⟨_, exec_stRegs s x, fun r hr => s.memWriteSeq_regsUpTo_read s.i hr, hframe, rfl, rfl, rfl, ⟨rfl, rfl⟩,
    ⟨rfl, rfl⟩, ⟨rfl, rfl⟩, ⟨rfl, rfl⟩, rfl⟩

theorem State.setRegs_regsFrom_get (s : State) (base : Word) (x r : Reg) :
    (s.setRegs (s.regsFrom base x)).v[r] = if r ≤ x then s.memRead (base + BitVec.ofNat 16 r.val) else s.v[r] :=
  s.regsFrom_get base x r

/-- Settles O38: LD Vx, [I] writes the registers up to `x`, from memory, and nothing else. -/
theorem loadRegistersReadsMemory : Obligations.LoadRegistersReadsMemory := by
  unfold Obligations.LoadRegistersReadsMemory
  intro x s
  have hget := s.setRegs_regsFrom_get s.i x
  exact ⟨_, exec_ldRegs s x, fun r hr => (hget r).trans (if_pos hr), fun r hr => (hget r).trans (if_neg (not_le.mpr hr)),
    s.setRegs_frame _⟩

/-- Settles O39: the load reads, at the same addresses, the bytes that the store left there. -/
theorem storedRegistersLoadBack : Obligations.StoredRegistersLoadBack := by
  unfold Obligations.StoredRegistersLoadBack
  intro x s t u hstore hi hmem
  obtain ⟨t', ht', hstored, -⟩ := storeRegistersFillsMemory x s
  cases ht'.symm.trans hstore
  obtain ⟨w, hw, hloaded, -⟩ := loadRegistersReadsMemory x u
  refine ⟨w, hw, fun r hr => ?_⟩
  calc w.v[r]
    _ = u.memRead (u.i + BitVec.ofNat 16 r.val) := hloaded r hr
    _ = t.memRead (s.i + BitVec.ofNat 16 r.val) := by rw [hi, hmem]
    _ = s.v[r] := hstored r hr

/-- Settles O40: the store writes the cell of its address. -/
theorem memoryReadsTheLastStore : Obligations.MemoryReadsTheLastStore := by
  unfold Obligations.MemoryReadsTheLastStore
  intro s a b v
  rw [State.memRead, State.memWrite_mem, Memory.read_write]
  exact if_congr eq_comm rfl rfl

end Sys2Proof.Machine
end

/-! The host's operations (spec 60_exceptions.md R261 to R271, 70_reset_and_hazards.md R290). -/

section
namespace Sys2Proof.Machine

/-- Settles O42: each TICK takes 1 from a timer that is not 0. -/
theorem ticksReachZeroAndStay : Obligations.TicksReachZeroAndStay := by
  unfold Obligations.TicksReachZeroAndStay
  intro font n
  induction n with
  | zero => exact fun s => ⟨s, rfl, rfl, rfl, rfl, rfl⟩
  | succ n ih =>
    intro s
    obtain ⟨t, hrun, hdt, hst, hv, hpc⟩ := ih s.tick
    have hdt1 : s.tick.dt.toNat = s.dt.toNat - 1 := tickTimer_toNat s.dt
    have hst1 : s.tick.st.toNat = s.st.toNat - 1 := tickTimer_toNat s.st
    exact ⟨t, hrun, by omega, by omega, hv, hpc⟩

theorem hostOp_setKey (font : Font) (s : State) (k : Fin 16) (b : Bool) :
    hostOp font (.setKey k b) s = .next (s.setKey k b, .done) := rfl

theorem State.setKeyBit_get (s : State) (k j : Fin 16) (b : Bool) :
    (s.setKeyBit k b).key[j] = if j = k then b else s.key[j] := by
  simp only [State.setKeyBit_key, Fin.getElem_fin, Vector.getElem_set, Fin.ext_iff, eq_comm]

/-- SET_KEY that ends a wait. -/
theorem State.setKey_of_press {s : State} {x : Reg} {k : Fin 16} (hx : s.await = some x) (hk : s.key[k] = false) :
    s.setKey k true = ((s.setKeyBit k true).setReg x (BitVec.ofNat 8 k.val)).setAwait none := by
  simp only [State.setKey, hx, hk, Bool.not_false, Bool.and_self, if_true]

/-- In either case SET_KEY drives its key alone and changes registers and `AWAIT` only. -/
theorem setKey_frame (s : State) (k : Fin 16) (b : Bool) : (s.setKey k b).key = (s.setKeyBit k b).key ∧
    (s.setKey k b).fault = s.fault ∧ (s.setKey k b).fb = s.fb ∧ (s.setKey k b).i = s.i ∧ (s.setKey k b).pc = s.pc ∧
    SameStack s (s.setKey k b) ∧ SameTimers s (s.setKey k b) ∧ SameMemory s (s.setKey k b) ∧ NoDraw s (s.setKey k b) := by
  obtain h | ⟨x, -, -, -, h⟩ := setKey_cases s k b
  · rw [h]
    exact ⟨rfl, rfl, rfl, rfl, rfl, ⟨rfl, rfl⟩, ⟨rfl, rfl⟩, .of_mem rfl, rfl⟩
  · rw [h]
    exact ⟨rfl, rfl, rfl, rfl, rfl, ⟨rfl, rfl⟩, ⟨rfl, rfl⟩, .of_mem rfl, rfl⟩

/-- Settles O43: SET_KEY drives its key, and the press that ends a wait writes one register besides. -/
theorem setKeyDrivesTheKeyAndEndsTheWait : Obligations.SetKeyDrivesTheKeyAndEndsTheWait := by
  unfold Obligations.SetKeyDrivesTheKeyAndEndsTheWait
  intro font s k b
  obtain ⟨hkeys, hframe⟩ := setKey_frame s k b
  refine ⟨_, hostOp_setKey font s k b, ?driven, fun j hj => ?others, fun x hx hb hk => ?press, fun hno => ?noPress, hframe⟩
  case driven => rw [hkeys, State.setKeyBit_get, if_pos rfl]
  case others => rw [hkeys, State.setKeyBit_get, if_neg hj]
  case press =>
    subst hb
    rw [State.setKey_of_press hx hk]
    obtain ⟨hval, hregs, -, -⟩ := (s.setKeyBit k true).setReg_frame x (BitVec.ofNat 8 k.val)
    have hnumber : (BitVec.ofNat 8 k.val).toNat = k.val := Nat.mod_eq_of_lt (by omega)
    exact ⟨(congrArg BitVec.toNat hval).trans hnumber, rfl, hregs⟩
  case noPress =>
    rw [State.setKey_of_no_wait_ended hno]
    exact ⟨rfl, rfl⟩

theorem loadOp_of_le {image : List Byte} (h : image.length ≤ 0xE00) (s : State) :
    loadOp image s = .next (s.memWriteSeq Config.programBase image, .done) := if_pos h

theorem loadOp_of_lt {image : List Byte} (h : 0xE00 < image.length) (s : State) :
    loadOp image s = .refused (.loadTooLong image.length) := if_neg (Nat.not_le.mpr h)

/-- The cells outside a region that does not wrap. -/
theorem memCell_ne_of_outside {a base : Word} {k j : Nat} (hfit : memCell base + k ≤ 4096) (hj : j < k)
    (ha : memCell a < memCell base ∨ memCell base + k ≤ memCell a) : memCell a ≠ memCell (base + BitVec.ofNat 16 j) := by
  rw [memCell_add, Nat.mod_eq_of_lt (by omega)]
  omega

/-- Settles O44: LOAD is a store from 0x200 on, of an image that ends below 4096 where LOAD takes it. -/
theorem loadCopiesTheImage : Obligations.LoadCopiesTheImage := by
  unfold Obligations.LoadCopiesTheImage
  refine fun font image s => ⟨fun hlen => ?copied, fun hlen => ?refused⟩
  case copied =>
    have hlen4096 : image.length ≤ 4096 := by omega
    have hread := s.memWriteSeq_read Config.programBase image hlen4096
    have hframe := s.memWriteSeq_frame Config.programBase image hlen4096
    have hbase : memCell Config.programBase = 0x200 := rfl
    refine ⟨_, (hostOp_load font image s).trans (loadOp_of_le hlen s), hread, fun a ha => hframe a fun j hj => ?outside, rfl,
      rfl, rfl, ⟨rfl, rfl⟩, ⟨rfl, rfl⟩, ⟨rfl, rfl⟩, ⟨rfl, rfl⟩, rfl⟩
    case outside => exact memCell_ne_of_outside (by omega) hj ha
  case refused => exact (hostOp_load font image s).trans (loadOp_of_lt hlen s)

theorem hostOp_reset (font : Font) (s : State) : hostOp font .reset s = .next (s.resetOp font, .done) := rfl

/-- RESET leaves the memory of `resetWith`. -/
theorem State.resetOp_memRead (s : State) (font : Font) (a : Word) :
    (s.resetOp font).memRead a = font.toList.getD (memCell a) 0 := State.resetWith_memRead font a

theorem State.resetOp_default (s : State) : s.resetOp Config.font = { State.reset with draws := s.draws } := by
  rw [State.resetOp, State.resetWith_default]

/-- Settles O45: RESET leaves `State.resetWith`, whose memory is the font and then 0. -/
theorem resetLeavesTheResetValues : Obligations.ResetLeavesTheResetValues := by
  unfold Obligations.ResetLeavesTheResetValues
  refine ⟨fun font s => ?anyFont, fun s => ?defaultFont⟩
  case anyFont =>
    have hv (r : Reg) : (s.resetOp font).v[r] = 0 := Vector.getElem_replicate r.isLt
    have hstack (j : Fin 16) : (s.resetOp font).stack[j] = 0 := Vector.getElem_replicate j.isLt
    have hkey (k : Fin 16) : (s.resetOp font).key[k] = false := Vector.getElem_replicate k.isLt
    refine ⟨_, hostOp_reset font s, hv, rfl, rfl, rfl, hstack, rfl, rfl, Framebuffer.unlit_get, hkey, rfl, rfl,
      fun j => ?font, fun a hlow hhigh => ?zeros⟩
    case font =>
      have hcell : memCell (BitVec.ofNat 16 j.val) = j.val := by rw [memCell, BitVec.toNat_ofNat]; omega
      rw [State.resetOp_memRead, hcell, List.getD_eq_getElem _ _ (by rw [Vector.length_toList]; exact j.isLt),
        Vector.getElem_toList, Fin.getElem_fin]
    case zeros =>
      have hcell : memCell a = a.toNat := Nat.mod_eq_of_lt hhigh
      rw [State.resetOp_memRead, hcell, List.getD_eq_default _ _ (by rwa [Vector.length_toList])]
  case defaultFont => rw [hostOp_reset, State.resetOp_default]

end Sys2Proof.Machine
end
